-- ==== Sys2Proof/Word.lean ====
section
/-! DEFINITION. The engine's word types (00_scope.md R11) and the two small records the source's data model names:
the block state of R34 and the key register of R32. -/

namespace Sys2Proof

/-- A 32-bit register: `CMD`, `RKOUT`, `T[k]`, `L`, `R`, `ACC`, `ACCV` and each `RK[i]` (R11). A word of a narrower
variant lies in the low `ws` bits, its upper bits zero (R44). -/
abbrev Word := BitVec 32

/-- A 64-bit register: `DIN`, `GCT`, `DOUT`, `CF` (R11). -/
abbrev Block := BitVec 64

/-- The 128-bit register `KEY` (R11). -/
abbrev KeyBits := BitVec 128

/-- The source's BlockState: the two Feistel halves (R19, R34). -/
structure Halves where
  left  : Word
  right : Word
deriving DecidableEq, Repr

/-- The source's KeyRegister, exactly four words, `t0` the front slot (R19, R32). -/
structure KeyReg where
  t0 : Word
  t1 : Word
  t2 : Word
  t3 : Word
deriving DecidableEq, Repr

end Sys2Proof
end

