-- ==== Sys2Proof/Config.lean ====
section
/-! DEFINITION. What is fixed for the whole hardware and no command selects (00_scope.md R11).

The spec leaves NO VALUE open: no result, flag or register is undefined after a command (93_implementation_defined.md,
section 1), so there is no free value and no opaque constant here. Its OPEN parameters (R12) are not constants:
`HOST_SCHEDULE` is data in State (`HostAgent.script`), and `BUS_MAP` and `STEP_TIME` are unmodelled, as R12 says. -/

namespace Sys2Proof.Config

/-- Depth of the round-key store: 44 entries, the largest round_count (R11, R30). -/
abbrev rkDepth : Nat := 44

/-- The longest command: `ATK 64, 128` takes 1035 micro-steps (R223, R224). It bounds the fuel of `runCommand`. -/
abbrev maxMicroSteps : Nat := 1035

end Sys2Proof.Config
end

