-- ==== Sys2Proof/Machine/Params.lean ====
section
/-! DEFINITION. The parameter table and the derived parameters (40_parameters_and_sequence.md R100 to R102). -/

namespace Sys2Proof.Machine

/-- The three parameter sets the engine supports and no others (R4, R10). -/
inductive Variant
  | v32   -- (block_size, key_size) = (32, 64)
  | v48   -- (48, 96)
  | v64   -- (64, 128)
deriving DecidableEq, Repr

/-- block_size in bits. -/
def Variant.bs : Variant → Nat
  | .v32 => 32
  | .v48 => 48
  | .v64 => 64

/-- key_size in bits. -/
def Variant.ks : Variant → Nat
  | .v32 => 64
  | .v48 => 96
  | .v64 => 128

/-- round_count, the result column of the parameter table (R100). -/
def Variant.rc : Variant → Nat
  | .v32 => 32
  | .v48 => 36
  | .v64 => 44

/-- The variant that a pair of `BS` and `KS` fields selects: exact match only, `none` for every other pair (R100). -/
def lookupVariant (bs ks : BitVec 8) : Option Variant :=
  if bs = 32#8 ∧ ks = 64#8 then some .v32
  else if bs = 48#8 ∧ ks = 96#8 then some .v48
  else if bs = 64#8 ∧ ks = 128#8 then some .v64
  else none

/-- `Lookup(bs, ks)`: round_count, `none` where R100 raises UnsupportedParameters. -/
def lookup (bs ks : BitVec 8) : Option Nat :=
  (lookupVariant bs ks).map Variant.rc

/-- word_size (R101). -/
def Variant.ws (v : Variant) : Nat := v.bs / 2

/-- Seed width of the sequence generator, chosen by round_count (R101, R102). -/
def Variant.lw (v : Variant) : Nat := if v.rc < 40 then 5 else 6

/-- T, the trial count of an attack session (R101). -/
def Variant.ntrials (v : Variant) : Nat := if v.ws > 20 then v.ws - 10 else 10

/-- `2^ws - 1` as a word (R101). -/
def Variant.mask (v : Variant) : Word := BitVec.ofNat 32 (2 ^ v.ws - 1)

/-- The key-schedule constant `2^ws - 4` as a word (R101, R127). -/
def Variant.kconst (v : Variant) : Word := BitVec.ofNat 32 (2 ^ v.ws - 4)

/-- The round before which a trial's fault is injected, `rc - 2` (R10, R182). -/
def Variant.faultRound (v : Variant) : Nat := v.rc - 2

end Sys2Proof.Machine
end

