-- ==== Sys2Proof/Syntax.lean ====
section
/-! DEFINITION. The command set CMDSET-1 (00_scope.md R3): one constructor per row of the opcode table. The operands are
the two size fields of format C as the word carries them (30_encoding.md R81, R82); the register operands are implicit. -/

namespace Sys2Proof

/-- A command: its operation and its `BS` and `KS` fields, unsigned 8-bit numbers. A pair the parameter table does not hold
is still a command (R85): running it raises UnsupportedParameters. -/
inductive Instr
  | enc  (bs ks : BitVec 8)   -- encrypt `DIN` under `KEY` (R162)
  | dec  (bs ks : BitVec 8)   -- decrypt `DIN` under `KEY` (R163)
  | atk  (bs ks : BitVec 8)   -- run an attack session (R193)
  | kexp (bs ks : BitVec 8)   -- key expansion only (R147)
deriving DecidableEq, Repr

/-- `CMD.BS` of a command. -/
def Instr.bs : Instr → BitVec 8
  | .enc bs _ => bs
  | .dec bs _ => bs
  | .atk bs _ => bs
  | .kexp bs _ => bs

/-- `CMD.KS` of a command. -/
def Instr.ks : Instr → BitVec 8
  | .enc _ ks => ks
  | .dec _ ks => ks
  | .atk _ ks => ks
  | .kexp _ ks => ks

end Sys2Proof
end

