-- ==== Sys2Proof/WellFormed.lean ====
section
/-! DEFINITION. Which commands are legal: those whose (`BS`, `KS`) pair the parameter table holds (30_encoding.md R84). -/

namespace Sys2Proof

/-- A command is well formed when its parameters are supported (R84, R100). It is the one check there is: the operation is a
constructor and the reserved byte has no place in the syntax. -/
def Instr.wellFormed (i : Instr) : Bool :=
  (Machine.lookupVariant i.bs i.ks).isSome

end Sys2Proof
end

