-- ==== Sys2Proof/Decode.lean ====
section
/-! DEFINITION. The command word, format C (30_encoding.md R80 to R86): its fields, the decoder (total on all 2^32 words,
rejecting by name), and the encoder. -/

namespace Sys2Proof

/-- `CMD.OP`, bits [7:0] (R81). -/
def opField (w : Word) : BitVec 8 := w.extractLsb' 0 8

/-- `CMD.BS`, bits [15:8] (R81). -/
def bsField (w : Word) : BitVec 8 := w.extractLsb' 8 8

/-- `CMD.KS`, bits [23:16] (R81). -/
def ksField (w : Word) : BitVec 8 := w.extractLsb' 16 8

/-- `CMD.RSV`, bits [31:24] (R81). -/
def rsvField (w : Word) : BitVec 8 := w.extractLsb' 24 8

/-- Why a word spells no command; both end in IllegalCommand (R85 item 1). -/
inductive DecodeReject
  | reservedByteNotZero
  | noSuchOperation
deriving DecidableEq, Repr

/-- The two outcomes of decoding. -/
inductive Decoded
  | command (i : Instr)
  | rejected (why : DecodeReject)
deriving DecidableEq, Repr

/-- Decode a command word (R83, R85): `RSV` must be zero and `OP` one of 1, 2, 3, 4. The size pair is an operand, not part of
the match: an unsupported pair decodes. -/
def decodeWord (w : Word) : Decoded :=
  if rsvField w ≠ 0#8 then .rejected .reservedByteNotZero
  else if opField w = 1#8 then .command (.enc (bsField w) (ksField w))
  else if opField w = 2#8 then .command (.dec (bsField w) (ksField w))
  else if opField w = 3#8 then .command (.atk (bsField w) (ksField w))
  else if opField w = 4#8 then .command (.kexp (bsField w) (ksField w))
  else .rejected .noSuchOperation

/-- The command a decoding gives, if any. -/
def Decoded.toOption : Decoded → Option Instr
  | .command i => some i
  | .rejected _ => none

/-- Decode a command word to an optional command. -/
def decode (w : Word) : Option Instr := (decodeWord w).toOption

/-- The opcode of a command (R83). -/
def Instr.op : Instr → BitVec 8
  | .enc _ _ => 1#8
  | .dec _ _ => 2#8
  | .atk _ _ => 3#8
  | .kexp _ _ => 4#8

/-- The command word of a command: `RSV`, `KS`, `BS`, `OP` from the most significant byte down (R81), the same number as
`OP | bs << 8 | ks << 16` of R87. -/
def encode (i : Instr) : Word := 0#8 ++ i.ks ++ i.bs ++ i.op

/-- The twelve legal command words (R84). -/
def legalWords : List Word :=
  [0x00402001#32, 0x00603001#32, 0x00804001#32,
   0x00402002#32, 0x00603002#32, 0x00804002#32,
   0x00402003#32, 0x00603003#32, 0x00804003#32,
   0x00402004#32, 0x00603004#32, 0x00804004#32]

/-- The command the decoder reads from a table row's bits. A command word is one 32-bit integer, written whole to `CMD`
(R65, R80), so it has no byte order; a number that does not fit 32 bits is no command word. -/
def decodeTableWord (nbits w : Nat) : Option Instr :=
  if w % 2 ^ nbits < 2 ^ 32 then decode (BitVec.ofNat 32 (w % 2 ^ nbits)) else none

end Sys2Proof
end

