-- ==== Sys2Proof/Machine/State.lean ====
section
/-! DEFINITION. The engine's state (10_state.md R20 to R46), the host agent's pending turns beside it (45_command_sequencer.md
R210), the reasons a step can stop, and the state after reset (R45). -/

namespace Sys2Proof.Machine

/-- `PHASE`, the sequencer state, in the order of its codes 0 to 6 (R40). -/
inductive Phase
  | idle | check | ks | enc | dec | aenc | arec
deriving DecidableEq, Repr

/-- The command errors (60_exceptions.md R251). They are exceptions the engine TAKES, as a next state (R256). -/
inductive CommandError
  | invalidArgument         -- code 1 (R252)
  | unsupportedParameters   -- code 2 (R253)
  | illegalCommand          -- code 3 (R254)
deriving DecidableEq, Repr

/-- `STATUS` as its three fields (R22); the reserved bits read as zero and are never written. -/
structure Status where
  /-- bit [0] -/
  busy : Bool
  /-- bit [1] -/
  done : Bool
  /-- bits [7:4] -/
  err  : BitVec 4
deriving DecidableEq, Repr

/-- One turn of an execution (R71, R210). -/
inductive HostTurn
  | engine                         -- the engine takes its micro-step, if it has one (R212)
  | read (number : Nat)            -- `HostRead(number)` (R62)
  | write (number value : Nat)     -- `HostWrite(number, value)` (R63)
  | wait                           -- the script's `WAIT`: poll `STATUS` until `DONE` (30_encoding.md R88)
  | reset                          -- the reset event (R280)
deriving DecidableEq, Repr

/-- The host agent. These are the model's own fields, not registers of the engine. -/
structure HostAgent where
  /-- The turns still to come, oldest first (`HOST_SCHEDULE`, R12). When none is left the engine alone goes on. -/
  script : List HostTurn
  /-- What the host's reads returned, oldest first: register number and value (R62). -/
  seen : List (Nat × Nat)
deriving DecidableEq, Repr

/-- The state of the engine, every piece that R20 lists, and the host agent. -/
structure State where
  /-- `CMD`, the last command word accepted (R21) -/
  cmd : Word
  /-- `STATUS` (R22) -/
  status : Status
  /-- `KEY` (R24) -/
  key : KeyBits
  /-- `DIN` (R25) -/
  din : Block
  /-- `GCT` (R26) -/
  gct : Block
  /-- `DOUT` (R27) -/
  dout : Block
  /-- `RKOUT` (R28) -/
  rkout : Word
  /-- `RK[0..43]` (R30) -/
  rk : Vector Word Config.rkDepth
  /-- `PHASE` (R40) -/
  phase : Phase
  /-- `T[0..3]` (R32) -/
  t : KeyReg
  /-- `S`, the sliding window of the constant generator (R33) -/
  swin : BitVec 6
  /-- `L` (R34) -/
  l : Word
  /-- `R` (R34) -/
  r : Word
  /-- `I`, the round index (R35) -/
  i : BitVec 6
  /-- `J`, the trial index (R36) -/
  j : BitVec 5
  /-- `ACC`, the recovered key bits (R37) -/
  acc : Word
  /-- `ACCV`, which key bits are recovered (R37) -/
  accv : Word
  /-- `CF`, the faulted ciphertext (R38) -/
  cf : Block
  /-- the host agent (R210); the model's own -/
  host : HostAgent
deriving DecidableEq, Repr

/-- Why the machine stops with a fault. Each arises only in a state the spec says is never reached, and stopping there is SAFE:
no claim about a reachable state can rest on it (`Obligations.CoherentMachineNeverFaults` states that none is reached). -/
inductive Fault
  /-- Raised by a micro-step or an engine turn past CHECK when `CMD` holds no legal command, which R222 and R226 rule out. Safe. -/
  | noCommandBehindPhase
  /-- Raised by a micro-step in phase IDLE, which has none (R212) and in which `BUSY` is never 1 (R23). Safe. -/
  | noMicroStepInIdle
  /-- Raised by a KS, ENC, DEC or AENC micro-step whose `I` names no entry of `RK`; R70 says there is no such access. Safe. -/
  | roundKeyIndexOutsideStore
  /-- Raised by an AREC micro-step whose key bit `J + 5` lies outside the word; R187 says `J + 5 < ws` always. Safe. -/
  | keyBitOutsideWord
deriving DecidableEq, Repr

/-- Why the model refuses a turn. Refusing is SAFE: the machine stops where the spec gives the event no meaning. -/
inductive Refusal
  /-- An arm of `exec` without a meaning (none is left). Safe. -/
  | notModelled (mnemonic : String)
  /-- Raised by `hostRead`, and by `hostWrite` while not busy: the number is mapped to no register (R64, U3). Safe. -/
  | unmappedRegister (number : Nat)
  /-- Raised by `hostWrite` while not busy: the integer does not fit the register, so R63 has no such event. Safe. -/
  | valueTooWide (number value : Nat)
deriving DecidableEq, Repr

/-- The outcome of a micro-step, a host event or a step. -/
abbrev Result := Host.Outcome State Fault Refusal

/-- The state right after reset: every piece zero, `PHASE` IDLE (R45, R280). The host agent's fields are the model's own and
start empty. -/
def State.reset : State where
  cmd := 0#32
  status := { busy := false, done := false, err := 0#4 }
  key := 0#128
  din := 0#64
  gct := 0#64
  dout := 0#64
  rkout := 0#32
  rk := Vector.replicate Config.rkDepth 0#32
  phase := .idle
  t := { t0 := 0#32, t1 := 0#32, t2 := 0#32, t3 := 0#32 }
  swin := 0#6
  l := 0#32
  r := 0#32
  i := 0#6
  j := 0#5
  acc := 0#32
  accv := 0#32
  cf := 0#64
  host := { script := [], seen := [] }

end Sys2Proof.Machine
end

