-- ==== Sys2Proof/Machine/Flags.lean ====
section
/-! DEFINITION. The only flags there are: the fields of `STATUS` (10_state.md R22, R42), the word the host reads, the codes of
the command errors, and the values command issue and command end give the register. -/

namespace Sys2Proof.Machine

/-- The code of a command error in `STATUS.ERR` (R251). -/
def CommandError.code : CommandError → BitVec 4
  | .invalidArgument => 1#4
  | .unsupportedParameters => 2#4
  | .illegalCommand => 3#4

/-- `STATUS` as the 32-bit word the host reads: `BUSY` [0], `DONE` [1], `ERR` [7:4], all other bits zero (R22). -/
def Status.word (x : Status) : Word :=
  0#24 ++ x.err ++ 0#2 ++ BitVec.ofBool x.done ++ BitVec.ofBool x.busy

/-- `STATUS` after command issue (R211). -/
def Status.issued : Status := { busy := true, done := false, err := 0#4 }

/-- `STATUS` after `Finish(e)` (R215). -/
def Status.ended (e : BitVec 4) : Status := { busy := false, done := true, err := e }

end Sys2Proof.Machine
end

