-- ==== Sys2Proof/Machine/Bits.lean ====
section
/-! DEFINITION. Bits, bit numbers and truncation (00_scope.md R13, R14; 44_fault_attack_engine.md R185). -/

namespace Sys2Proof.Machine

/-- `x mod 2^ws`. -/
def trunc (v : Variant) (x : Word) : Word := x &&& v.mask

/-- `w[i] <- b` on a 32-bit register. -/
def setBit (w : Word) (i : Nat) (b : Bool) : Word :=
  if b then w ||| BitVec.twoPow 32 i else w &&& ~~~(BitVec.twoPow 32 i)

/-- `k mod ws` for any integer k, negative ones included: the non-negative remainder (R14). -/
def bitIndex (v : Variant) (k : Int) : Nat := (k % (v.ws : Int)).toNat

/-- `bitpos(k) = ws - 1 - (k mod ws)`: the MSB-first index of arithmetic bit `k mod ws` (R185). -/
def bitpos (v : Variant) (k : Int) : Nat := v.ws - 1 - bitIndex v k

/-- The bit of a word at an MSB-first index: index p is bit `ws - 1 - p` (R13, R184). -/
def msbBit (v : Variant) (x : Word) (p : Nat) : Bool := x.getLsbD (v.ws - 1 - p)

end Sys2Proof.Machine
end

