-- ==== Sys2Proof/Machine/Operands.lean ====
section
/-! DEFINITION. Operands: the range checks of the operand registers (45_command_sequencer.md R213, 30_encoding.md R82), the
words of a key (42_key_schedule.md R140) and the halves of a block (43_cipher_engine.md R165). -/

namespace Sys2Proof.Machine

/-- Check 3 of R213 passes: `KEY < 2^ks`. -/
def keyFits (v : Variant) (s : State) : Bool := s.key.toNat < 2 ^ v.ks

/-- Check 4 of R213 passes: `DIN < 2^bs`. -/
def dinFits (v : Variant) (s : State) : Bool := s.din.toNat < 2 ^ v.bs

/-- Check 5 of R213 passes: `GCT < 2^bs`. -/
def gctFits (v : Variant) (s : State) : Bool := s.gct.toNat < 2 ^ v.bs

/-- What R213 checks of `KEXP`: its key only. -/
def keyOperandFits (v : Variant) (s : State) : Bool := keyFits v s

/-- What R213 checks of `ENC` and `DEC`: key and data. -/
def cipherOperandsFit (v : Variant) (s : State) : Bool := keyFits v s && dinFits v s

/-- What R213 checks of `ATK`: key, plaintext and genuine ciphertext. -/
def attackOperandsFit (v : Variant) (s : State) : Bool := keyFits v s && dinFits v s && gctFits v s

/-- Word `k` of a key: `(key >> (k * ws)) mod 2^ws` (R140). -/
def keyWord (v : Variant) (key : KeyBits) (k : Nat) : Word :=
  trunc v ((key >>> (k * v.ws)).setWidth 32)

/-- The key register as loaded, least significant word first (R140, R66). -/
def keyWords (v : Variant) (key : KeyBits) : KeyReg :=
  { t0 := keyWord v key 0, t1 := keyWord v key 1, t2 := keyWord v key 2, t3 := keyWord v key 3 }

/-- `block >> ws`: the more significant half (R165, R66). -/
def upperHalf (v : Variant) (b : Block) : Word := (b >>> v.ws).setWidth 32

/-- `block mod 2^ws`: the less significant half (R165, R66). -/
def lowerHalf (v : Variant) (b : Block) : Word := trunc v (b.setWidth 32)

/-- The halves of a block. -/
def split (v : Variant) (b : Block) : Halves := { left := upperHalf v b, right := lowerHalf v b }

/-- `(L << ws) | R`, zero-extended to 64 bits (R160, R165). -/
def join (v : Variant) (h : Halves) : Block := (h.left.setWidth 64 <<< v.ws) ||| h.right.setWidth 64

end Sys2Proof.Machine
end

