-- ==== Sys2Proof/Machine/Ops.lean ====
section
/-! DEFINITION. The shared operations over the state: command issue, command end, taking a command error, reset, the round-key
store and the loading of the halves. -/

namespace Sys2Proof.Machine

/-- Command issue: what an accepted write of `w` to `CMD` does (R211). It is also what leaves an error state (R258). -/
def issue (w : Word) (s : State) : State :=
  { s with cmd := w, status := Status.issued, phase := .check }

/-- `Finish(e)`: the end of a command, with error code `e` (R215). -/
def finish (e : BitVec 4) (s : State) : State :=
  { s with status := Status.ended e, phase := .idle }

/-- Taking a command error, the engine's only exception: `Finish` with the error's code. Nothing is saved and control goes to
no handler (R256, R257). -/
def raise (e : CommandError) (s : State) : State := finish e.code s

/-- The reset event: every piece of the engine's state zero, `PHASE` IDLE, in any state (R280). The host agent is outside the
engine and keeps its turns and what it has seen. -/
def resetEngine (s : State) : State := { State.reset with host := s.host }

/-- `RK[k]` (R70). Every caller has `k < 44`; the store holds no other entry. -/
def State.rkAt (s : State) (k : Nat) : Word := s.rk[k]?.getD 0#32

/-- `RK[k] <- x` (R70, R216). -/
def State.storeRk (s : State) (k : Nat) (x : Word) : State :=
  { s with rk := s.rk.setIfInBounds k x }

/-- `L` and `R` as the halves of a block state (R34). -/
def State.halves (s : State) : Halves := { left := s.l, right := s.r }

/-- `L <- h.left ; R <- h.right`. -/
def State.withHalves (s : State) (h : Halves) : State := { s with l := h.left, r := h.right }

/-- `L <- DIN >> ws ; R <- DIN mod 2^ws` (R217, R221). -/
def loadHalves (v : Variant) (s : State) : State := s.withHalves (split v s.din)

/-- `I <- k`. -/
def State.withI (s : State) (k : Nat) : State := { s with i := BitVec.ofNat 6 k }

/-- Replace the host agent's pending turns. -/
def State.withScript (s : State) (turns : List HostTurn) : State :=
  { s with host := { s.host with script := turns } }

/-- The host has read the value `x` from register number `n` (R62). -/
def State.sawRead (s : State) (n x : Nat) : State :=
  { s with host := { s.host with seen := s.host.seen ++ [(n, x)] } }

end Sys2Proof.Machine
end

