-- ==== Sys2Proof/Machine/Round.lean ====
section
/-! DEFINITION. The round function and the two Feistel updates (41_round_function.md R120 to R124). -/

namespace Sys2Proof.Machine

/-- The formula of R120. It is `ROL` only inside the domain that `rol` checks. -/
def rotl (v : Variant) (x : Word) (r : Nat) : Word :=
  trunc v ((x <<< r) ||| (x >>> (v.ws - r)))

/-- `ROL(x, r)` at word size ws: partial, defined only for 0 < r < ws (R120, R128). -/
def rol (v : Variant) (x : Word) (r : Nat) : Option Word :=
  if 0 < r ∧ r < v.ws then some (rotl v x r) else none

/-- `f(x) = (x & ROL(x, 5)) ^ ROL(x, 1)` (R121); both amounts lie in the domain of `ROL` (R128). -/
def f (v : Variant) (x : Word) : Word := (x &&& rotl v x 5) ^^^ rotl v x 1

/-- `Fwd(L, R, k) = (R ^ f(L) ^ k, L)` (R123). -/
def fwd (v : Variant) (h : Halves) (k : Word) : Halves :=
  { left := h.right ^^^ f v h.left ^^^ k, right := h.left }

/-- `Inv(L, R, k) = (R, L ^ f(R) ^ k)` (R124). -/
def inv (v : Variant) (h : Halves) (k : Word) : Halves :=
  { left := h.right, right := h.left ^^^ f v h.right ^^^ k }

end Sys2Proof.Machine
end

