-- ==== Sys2Proof/Machine/Cipher.lean ====
section
/-! DEFINITION. The cipher engine: `Encrypt` and `Decrypt` as functions of the round keys (43_cipher_engine.md R160, R161), the
ENC and DEC micro-steps (45_command_sequencer.md R218, R219), and the dispatches of the two commands (R217). -/

namespace Sys2Proof.Machine

/-- The halves after the forward rounds 0 to n-1 (R160). -/
def encRounds (v : Variant) (rk : Nat → Word) : Nat → Halves → Halves
  | 0, h => h
  | n + 1, h => fwd v (encRounds v rk n h) (rk n)

/-- `Encrypt(p, rk, ws, rc)` (R160). -/
def encrypt (v : Variant) (rk : Nat → Word) (p : Block) : Block :=
  join v (encRounds v rk v.rc (split v p))

/-- The halves after the inverse rounds n-1 down to 0 (R161). -/
def decRounds (v : Variant) (rk : Nat → Word) : Nat → Halves → Halves
  | 0, h => h
  | n + 1, h => decRounds v rk n (inv v h (rk n))

/-- `Decrypt(c, rk, ws, rc)` (R161). -/
def decrypt (v : Variant) (rk : Nat → Word) (c : Block) : Block :=
  join v (decRounds v rk v.rc (split v c))

/-- The ENC micro-step: one forward round with index `I` (R218). -/
def encStep (v : Variant) (s : State) : Result :=
  if s.i.toNat < Config.rkDepth then
    let h := fwd v s.halves (s.rkAt s.i.toNat)
    .next (if s.i.toNat + 1 < v.rc then (s.withHalves h).withI (s.i.toNat + 1)
      else finish 0#4 { s.withHalves h with dout := join v h })
  else .fault .roundKeyIndexOutsideStore

/-- The DEC micro-step: one inverse round with index `I`, counting down (R219). -/
def decStep (v : Variant) (s : State) : Result :=
  if s.i.toNat < Config.rkDepth then
    let h := inv v s.halves (s.rkAt s.i.toNat)
    .next (if 0 < s.i.toNat then (s.withHalves h).withI (s.i.toNat - 1)
      else finish 0#4 { s.withHalves h with dout := join v h })
  else .fault .roundKeyIndexOutsideStore

/-- The dispatch of `ENC` at the end of the KS phase (R217). -/
def dispatchEnc (v : Variant) (s : State) : State :=
  { (loadHalves v s).withI 0 with phase := .enc }

/-- The dispatch of `DEC` at the end of the KS phase: `I` starts at `rc - 1` (R217). -/
def dispatchDec (v : Variant) (s : State) : State :=
  { (loadHalves v s).withI (v.rc - 1) with phase := .dec }

end Sys2Proof.Machine
end

