-- ==== Sys2Proof/Machine/Sequence.lean ====
section
/-! DEFINITION. The round-constant sequence as the source generates it, and the window register that produces it one bit a
round (40_parameters_and_sequence.md R103 to R107). -/

namespace Sys2Proof.Machine

/-- Append `n` feedback bits to the list, `state[i + tap] ^ state[i]` for consecutive `i` (the loops of R103). -/
def seqGrow (tap : Nat) : Nat → Nat → List Bool → List Bool
  | 0, _, st => st
  | n + 1, i, st => seqGrow tap n (i + 1) (st ++ [st.getD (i + tap) false ^^ st.getD i false])

/-- `seq(rc)`: the seed of `lw` ones, extended to `rc` entries; the tap is 2 for width 5 and 1 for width 6, and the loop runs
`rc - lw` times (R103, R104). -/
def seq (v : Variant) : List Bool :=
  seqGrow (if v.lw = 5 then 2 else 1) (v.rc - v.lw) 0 (List.replicate v.lw true)

/-- `seq(rc)[i]`, the bit of key-schedule round `i < rc` (R103). The list has no entry beyond; none is read there. -/
def seqBit (v : Variant) (i : Nat) : Bool := (seq v).getD i false

/-- `LfsrLoad`: all ones over the seed width (R106). -/
def lfsrLoad (v : Variant) : BitVec 6 := BitVec.ofNat 6 (2 ^ v.lw - 1)

/-- `LfsrOut`: the sequence bit of the current round (R106). -/
def lfsrOut (x : BitVec 6) : Bool := x.getLsbD 0

/-- `LfsrStep`: shift down, the feedback entering at bit `lw - 1` (R106). -/
def lfsrStep (v : Variant) (x : BitVec 6) : BitVec 6 :=
  let fb := if v.lw = 5 then x.getLsbD 2 ^^ x.getLsbD 0 else x.getLsbD 1 ^^ x.getLsbD 0
  (x >>> 1) ||| ((BitVec.ofBool fb).setWidth 6 <<< (v.lw - 1))

/-- The window before the key-schedule round `i`, counted from `LfsrLoad` (R107). -/
def lfsrWindow (v : Variant) : Nat → BitVec 6
  | 0 => lfsrLoad v
  | n + 1 => lfsrStep v (lfsrWindow v n)

end Sys2Proof.Machine
end

