-- ==== Sys2Proof/Machine/KeySchedule.lean ====
section
/-! DEFINITION. The key schedule as a function, and the KS micro-step (42_key_schedule.md, 45_command_sequencer.md R216). -/

namespace Sys2Proof.Machine

/-- The round constant for a sequence bit: `kconst ^ z`, the bit entering at bit 0 (R141). -/
def roundConst (v : Variant) (z : Bool) : Word := v.kconst ^^^ (BitVec.ofBool z).setWidth 32

/-- One key-schedule round on the key register, the shift form of R144. -/
def ksRound (v : Variant) (z : Bool) (t : KeyReg) : KeyReg :=
  { t0 := t.t1, t1 := t.t2, t2 := t.t3, t3 := t.t0 ^^^ f v t.t1 ^^^ roundConst v z }

/-- The same round in the source's three steps: `Fwd` with left = t1 and right = t0, then drop t0, append new_left at the back
and put new_right in the front slot (R142). -/
def ksRoundBySteps (v : Variant) (z : Bool) (t : KeyReg) : KeyReg :=
  let h := fwd v { left := t.t1, right := t.t0 } (roundConst v z)
  { t0 := h.right, t1 := t.t2, t2 := t.t3, t3 := h.left }

/-- The key register before round `n` of the schedule of `key` (R143). -/
def keyRegBefore (v : Variant) (key : KeyBits) : Nat → KeyReg
  | 0 => keyWords v key
  | n + 1 => ksRound v (seqBit v n) (keyRegBefore v key n)

/-- `KeySchedule(key, bs, ks)[n]`, the round key of round `n < rc` (R143). -/
def keySchedule (v : Variant) (key : KeyBits) (n : Nat) : Word := (keyRegBefore v key n).t0

/-- The writes of one KS micro-step other than to `I` and `PHASE` (R216). -/
def ksRoundWrites (v : Variant) (s : State) : State :=
  { s.storeRk s.i.toNat s.t.t0 with
    t := ksRound v (lfsrOut s.swin) s.t
    swin := lfsrStep v s.swin }

/-- The KS micro-step: one key-schedule round with index `I`; the last one ends the phase with the command's own dispatch
(R216, R217). -/
def ksStep (dispatch : Variant → State → State) (v : Variant) (s : State) : Result :=
  if s.i.toNat < Config.rkDepth then
    .next (if s.i.toNat + 1 < v.rc then (ksRoundWrites v s).withI (s.i.toNat + 1)
      else dispatch v (ksRoundWrites v s))
  else .fault .roundKeyIndexOutsideStore

/-- The dispatch of `KEXP` at the end of the KS phase: the command ends, `I` left as it is (R217). -/
def dispatchKexp (_ : Variant) (s : State) : State := finish 0#4 s

end Sys2Proof.Machine
end

