-- ==== Sys2Proof/Machine/Attack.lean ====
section
/-! DEFINITION. The fault-attack engine: the faulted encryption, the recovery of two key bits in both of the spec's forms, the
accumulator and the session as functions (44_fault_attack_engine.md R182 to R192), the AENC and AREC micro-steps
(45_command_sequencer.md R220, R221) and the dispatch of `ATK` (R217). -/

namespace Sys2Proof.Machine

/-- The fault hook before round `i` of trial `j`: flip bit `j` of the left half in round `rc - 2`, and only there (R182, R183). -/
def faultHook (v : Variant) (i j : Nat) (h : Halves) : Halves :=
  if i = v.faultRound then { h with left := h.left ^^^ BitVec.twoPow 32 j } else h

/-- The halves after the rounds 0 to n-1 of trial `j`'s faulted encryption (R182). -/
def faultedRounds (v : Variant) (rk : Nat → Word) (j : Nat) : Nat → Halves → Halves
  | 0, h => h
  | n + 1, h => fwd v (faultHook v n j (faultedRounds v rk j n h)) (rk n)

/-- `FaultedEncrypt(p, rk, ws, rc, j)` (R182). -/
def faultedEncrypt (v : Variant) (rk : Nat → Word) (j : Nat) (p : Block) : Block :=
  join v (faultedRounds v rk j v.rc (split v p))

/-- The two key bits one trial recovers. -/
structure RecoveredBits where
  ka : Bool
  kb : Bool
deriving DecidableEq, Repr

/-- The number of the key bit that the first equation gives: `a = (j - 5) mod ws` (R189). -/
def targetA (v : Variant) (j : Nat) : Nat := bitIndex v ((j : Int) - 5)

/-- The number of the key bit that the second equation gives: `b = j + 5` (R189). -/
def targetB (j : Nat) : Nat := j + 5

/-- The comparator word `D = (GCT ^ CF) mod 2^ws` (R198). -/
def comparator (v : Variant) (c cf : Block) : Word := lowerHalf v c ^^^ lowerHalf v cf

/-- `RecoverTrial` on words, bits numbered from the least significant (R189, R221). -/
def recoverTrial (v : Variant) (j : Nat) (c cf : Block) : RecoveredBits :=
  let x := upperHalf v c
  let y := lowerHalf v c
  let d := comparator v c cf
  let a := targetA v j
  let b := targetB j
  { ka := d.getLsbD j ^^ (y.getLsbD a && y.getLsbD (bitIndex v ((j : Int) - 10)))
      ^^ y.getLsbD (bitIndex v ((j : Int) - 6)) ^^ x.getLsbD a
    kb := d.getLsbD b ^^ (y.getLsbD b && y.getLsbD j) ^^ y.getLsbD (j + 4) ^^ x.getLsbD b }

/-- `RecoverTrial` as the source writes it, every index MSB-first (R184 to R188). -/
def recoverTrialMsb (v : Variant) (j : Nat) (c cf : Block) : RecoveredBits :=
  let xT := msbBit v (upperHalf v c)
  let yT := msbBit v (lowerHalf v c)
  let yT' := msbBit v (lowerHalf v cf)
  let idx1 := bitpos v ((j : Int) - 5)
  let idx1a := bitpos v ((j : Int) - 10)
  let idx1b := bitpos v ((j : Int) - 6)
  let idx2 := bitpos v ((j : Int) + 5)
  let idx2a := bitpos v (j : Int)
  let idx2b := bitpos v ((j : Int) + 4)
  let bJ := v.ws - j - 1
  let bJ5 := v.ws - j - 6
  { ka := yT bJ ^^ yT' bJ ^^ (yT idx1 && yT idx1a) ^^ yT idx1b ^^ xT idx1
    kb := yT bJ5 ^^ yT' bJ5 ^^ (yT idx2 && yT idx2a) ^^ yT idx2b ^^ xT idx2 }

/-- The source's RecoveredKeyBits: values and valid mask (R37). -/
structure KeyBitMap where
  acc  : Word
  accv : Word
deriving DecidableEq, Repr

/-- Write one recovered bit; a later write to the same bit replaces an earlier one (R190). -/
def KeyBitMap.write (m : KeyBitMap) (k : Nat) (b : Bool) : KeyBitMap :=
  { acc := setBit m.acc k b, accv := setBit m.accv k true }

/-- The two writes of trial `j`, bit `a` and then bit `b` (R190). -/
def recordTrial (v : Variant) (j : Nat) (c cf : Block) (m : KeyBitMap) : KeyBitMap :=
  let q := recoverTrial v j c cf
  (m.write (targetA v j) q.ka).write (targetB j) q.kb

/-- The accumulator after trials 0 to n-1 of a session, in ascending order (R192, R197). -/
def sessionMap (v : Variant) (rk : Nat → Word) (p c : Block) : Nat → KeyBitMap
  | 0 => { acc := 0#32, accv := 0#32 }
  | n + 1 => recordTrial v n c (faultedEncrypt v rk n p) (sessionMap v rk p c n)

/-- `AttackSession(P, C, key, bs, ks)` (R191, R192). -/
def attackSession (v : Variant) (p c : Block) (key : KeyBits) : Word :=
  (sessionMap v (keySchedule v key) p c v.ntrials).acc

/-- The AENC micro-step: one forward round of a trial's faulted encryption, index `I`, trial `J` (R220). -/
def aencStep (v : Variant) (s : State) : Result :=
  if s.i.toNat < Config.rkDepth then
    let h := fwd v (faultHook v s.i.toNat s.j.toNat s.halves) (s.rkAt s.i.toNat)
    .next (if s.i.toNat + 1 < v.rc then (s.withHalves h).withI (s.i.toNat + 1)
      else { s.withHalves h with cf := join v h, phase := .arec })
  else .fault .roundKeyIndexOutsideStore

/-- The accumulator registers as a map. -/
def State.keyBitMap (s : State) : KeyBitMap := { acc := s.acc, accv := s.accv }

/-- `ACC` and `ACCV` from a map. -/
def State.withKeyBitMap (s : State) (m : KeyBitMap) : State := { s with acc := m.acc, accv := m.accv }

/-- Start the next trial: `L`, `R` from `DIN`, `I` zero, phase AENC (R217, R221). -/
def startTrial (v : Variant) (s : State) : State :=
  { (loadHalves v s).withI 0 with phase := .aenc }

/-- The AREC micro-step: the recovery step of trial `J`, then the next trial or, after the last, the readout and the end of the
command (R221). -/
def arecStep (v : Variant) (s : State) : Result :=
  if targetB s.j.toNat < v.ws then
    let s' := s.withKeyBitMap (recordTrial v s.j.toNat s.gct s.cf s.keyBitMap)
    .next (if s.j.toNat + 1 < v.ntrials then { startTrial v s' with j := BitVec.ofNat 5 (s.j.toNat + 1) }
      else finish 0#4 { s' with rkout := s'.acc })
  else .fault .keyBitOutsideWord

/-- The dispatch of `ATK` at the end of the KS phase: the first trial, with an empty accumulator (R217, R199). -/
def dispatchAtk (v : Variant) (s : State) : State :=
  { startTrial v s with j := 0#5, acc := 0#32, accv := 0#32 }

end Sys2Proof.Machine
end

