-- ==== Sys2Proof/Machine/Sequencer.lean ====
section
/-! DEFINITION. The CHECK micro-step and the engine's micro-step selected by `PHASE` (45_command_sequencer.md R212 to R214). -/

namespace Sys2Proof.Machine

/-- The loads of a CHECK micro-step whose checks all pass: `T`, `S`, `I` and `PHASE` (R214). -/
def checkLoads (v : Variant) (s : State) : State :=
  { s.withI 0 with t := keyWords v s.key, swin := lfsrLoad v, phase := .ks }

/-- The CHECK micro-step of a word that decodes to a command with these size fields: the parameter check, then the range checks
of the operands the command uses, then the loads (R213 checks 2 to 5, R214). Check 1 is the decoder's. -/
def checkStep (operandsFit : Variant → State → Bool) (bs ks : BitVec 8) (s : State) : State :=
  match lookupVariant bs ks with
  | none => raise .unsupportedParameters s
  | some v => if operandsFit v s then checkLoads v s else raise .invalidArgument s

/-- A micro-step of a phase after CHECK, for a command whose parameters are supported. -/
def withVariant (bs ks : BitVec 8) (s : State) (k : Variant → State → Result) : Result :=
  match lookupVariant bs ks with
  | none => .fault .noCommandBehindPhase
  | some v => k v s

/-- The engine's micro-step, selected by `PHASE` (R212), for a command with size fields `bs`, `ks`. Only CHECK and the end of KS
depend on the operation: by what is checked (R213) and by the dispatch (R217). -/
def microStep (operandsFit : Variant → State → Bool) (dispatch : Variant → State → State)
    (bs ks : BitVec 8) (s : State) : Result :=
  match s.phase with
  | .idle => .fault .noMicroStepInIdle
  | .check => .next (checkStep operandsFit bs ks s)
  | .ks => withVariant bs ks s (ksStep dispatch)
  | .enc => withVariant bs ks s encStep
  | .dec => withVariant bs ks s decStep
  | .aenc => withVariant bs ks s aencStep
  | .arec => withVariant bs ks s arecStep

end Sys2Proof.Machine
end

