-- ==== Sys2Proof/Machine/Commands.lean ====
section
/-! DEFINITION. The meanings of the four commands. A command runs as a sequence of micro-steps (45_command_sequencer.md R212);
each meaning is the micro-step the engine takes while that command's word stands in `CMD`, and repeating it from CHECK until
`Finish` is the command's whole effect (R225). -/

namespace Sys2Proof.Machine

/-- `ENC bs, ks` (R162): checks key and data, then KS, then the ENC rounds. -/
def execEnc (bs ks : BitVec 8) (s : State) : Result :=
  microStep cipherOperandsFit dispatchEnc bs ks s

/-- `DEC bs, ks` (R163): checks key and data, then KS, then the DEC rounds. -/
def execDec (bs ks : BitVec 8) (s : State) : Result :=
  microStep cipherOperandsFit dispatchDec bs ks s

/-- `ATK bs, ks` (R193): checks key, plaintext and genuine ciphertext, then KS, then the trials. -/
def execAtk (bs ks : BitVec 8) (s : State) : Result :=
  microStep attackOperandsFit dispatchAtk bs ks s

/-- `KEXP bs, ks` (R147): checks the key, then KS, and ends. -/
def execKexp (bs ks : BitVec 8) (s : State) : Result :=
  microStep keyOperandFits dispatchKexp bs ks s

end Sys2Proof.Machine
end

