-- ==== Sys2Proof/Machine/Dispatch.lean ====
section
/-! DEFINITION. One arm per command. -/

namespace Sys2Proof.Machine

def exec (i : Instr) (s : State) : Host.Outcome State Fault Refusal :=
  match i with
  | .enc bs ks => Sys2Proof.Machine.execEnc bs ks s
  | .dec bs ks => Sys2Proof.Machine.execDec bs ks s
  | .atk bs ks => Sys2Proof.Machine.execAtk bs ks s
  | .kexp bs ks => Sys2Proof.Machine.execKexp bs ks s

end Sys2Proof.Machine
end

