-- ==== Sys2Proof/Machine/HostPort.lean ====
section
/-! DEFINITION. The host register space and the two host events (20_memory.md R61 to R64). -/

namespace Sys2Proof.Machine

/-- The mapped registers (R61). -/
inductive Reg
  | cmd | status | key | din | gct | dout | rkout
  | rk (k : Fin Config.rkDepth)
deriving DecidableEq, Repr

/-- The register a number names, if any (R61). -/
def Reg.ofNumber (n : Nat) : Option Reg :=
  if n = 0x00 then some .cmd
  else if n = 0x01 then some .status
  else if n = 0x02 then some .key
  else if n = 0x03 then some .din
  else if n = 0x04 then some .gct
  else if n = 0x05 then some .dout
  else if n = 0x06 then some .rkout
  else if h : 0x40 ≤ n ∧ n < 0x40 + Config.rkDepth then some (.rk ⟨n - 0x40, by omega⟩)
  else none

/-- The number of a register (R61). -/
def Reg.number : Reg → Nat
  | .cmd => 0x00
  | .status => 0x01
  | .key => 0x02
  | .din => 0x03
  | .gct => 0x04
  | .dout => 0x05
  | .rkout => 0x06
  | .rk k => 0x40 + k.val

/-- The width of a register in bits (R61). -/
def Reg.width : Reg → Nat
  | .cmd => 32
  | .status => 32
  | .key => 128
  | .din => 64
  | .gct => 64
  | .dout => 64
  | .rkout => 32
  | .rk _ => 32

/-- The whole current value of a register (R62). -/
def readReg (s : State) : Reg → Nat
  | .cmd => s.cmd.toNat
  | .status => s.status.word.toNat
  | .key => s.key.toNat
  | .din => s.din.toNat
  | .gct => s.gct.toNat
  | .dout => s.dout.toNat
  | .rkout => s.rkout.toNat
  | .rk k => (s.rkAt k.val).toNat

/-- What an accepted write of `x` to a register does: `CMD` issues a command, the operand registers are stored, a read-only
register ignores it (R63). -/
def writeReg (s : State) (x : Nat) : Reg → State
  | .cmd => issue (BitVec.ofNat 32 x) s
  | .key => { s with key := BitVec.ofNat 128 x }
  | .din => { s with din := BitVec.ofNat 64 x }
  | .gct => { s with gct := BitVec.ofNat 64 x }
  | .status => s
  | .dout => s
  | .rkout => s
  | .rk _ => s

/-- `HostRead(n)`: the host learns the register's value and nothing else changes; an unmapped number has no meaning (R62, R64). -/
def hostRead (n : Nat) (s : State) : Result :=
  match Reg.ofNumber n with
  | some g => .next (s.sawRead n (readReg s g))
  | none => .refused (.unmappedRegister n)

/-- `HostWrite(n, x)`: dropped while busy, before anything else is looked at; otherwise as `writeReg` says. An unmapped number
or an integer the register cannot hold has no meaning (R63, R64). -/
def hostWrite (n x : Nat) (s : State) : Result :=
  if s.status.busy then .next s
  else
    match Reg.ofNumber n with
    | none => .refused (.unmappedRegister n)
    | some g => if x < 2 ^ g.width then .next (writeReg s x g) else .refused (.valueTooWide n x)

end Sys2Proof.Machine
end

