-- ==== Sys2Proof/Machine/Turn.lean ====
section
/-! DEFINITION. One turn of an execution: the engine's micro-step, or one host event (45_command_sequencer.md R210, R212). -/

namespace Sys2Proof.Machine

/-- The micro-step of a word that spells no command: IllegalCommand, in CHECK (R85, R213 check 1). -/
def illegalWordStep (s : State) : Result :=
  if s.phase = .check then .next (raise .illegalCommand s) else .fault .noCommandBehindPhase

/-- The engine's turn: enabled exactly when `BUSY = 1`; the word in `CMD` is decoded and its command's micro-step is taken (R212).
An idle engine has no micro-step, so its turn changes nothing. -/
def engineTurn (s : State) : Result :=
  if s.status.busy then
    match decode s.cmd with
    | some i => exec i s
    | none => illegalWordStep s
  else .next s

/-- The script's `WAIT`: if `DONE` is set the host reads `STATUS` and goes on; otherwise the engine has a turn and the host polls
again (30_encoding.md R88). -/
def waitTurn (rest : List HostTurn) (s : State) : Result :=
  if s.status.done then .next ((s.withScript rest).sawRead Reg.status.number (readReg s .status))
  else engineTurn s

/-- The next turn of the execution; when the host has none left, the engine goes on alone. -/
def takeTurn (s : State) : Result :=
  match s.host.script with
  | [] => engineTurn s
  | .engine :: rest => engineTurn (s.withScript rest)
  | .read n :: rest => hostRead n (s.withScript rest)
  | .write n x :: rest => hostWrite n x (s.withScript rest)
  | .wait :: rest => waitTurn rest s
  | .reset :: rest => .next (resetEngine (s.withScript rest))

/-- The state in which the word `w` has just been issued and the engine has the next turn. -/
def issuedState (w : Word) (s : State) : State :=
  (issue w s).withScript (.engine :: s.host.script)

end Sys2Proof.Machine
end

