-- ==== Sys2Proof/Machine/Step.lean ====
section
/-! DEFINITION. One step of the machine is one event of the execution (20_memory.md R71), and where a command word stands when
the next step runs it. -/

namespace Sys2Proof.Machine

/-- One step: the next turn. -/
def step (s : State) : Host.Outcome State Fault Refusal := takeTurn s

/-- `s` with the table word `w` in `CMD` as command issue leaves it (R211) and the engine's turn next, so that the next step is
the first micro-step of that command. -/
def State.withFetchWord (s : State) (nbits w : Nat) : State :=
  issuedState (BitVec.ofNat 32 (w % 2 ^ nbits)) s

end Sys2Proof.Machine
end

