-- ==== Sys2Proof/Machine/Script.lean ====
section
/-! DEFINITION. The host-script notation and its macros as turns (30_encoding.md R87, R88). Notation only: nothing in the machine
depends on it. -/

namespace Sys2Proof.Machine

/-- A line of a host script. -/
inductive ScriptLine
  | wr (g : Reg) (x : Nat)                                              -- `WR <reg>, <value>`
  | rd (g : Reg)                                                        -- `RD <reg>`
  | issue (i : Instr)                                                   -- `<MNEMONIC> <bs>, <ks>`
  | wait                                                                -- `WAIT`
  | encrypt (p k : Nat) (bs ks : BitVec 8)                              -- `encrypt(p, k) @ bs,ks`
  | decrypt (c k : Nat) (bs ks : BitVec 8)                              -- `decrypt(c, k) @ bs,ks`
  | runAttackSession (p c k : Nat) (bs ks : BitVec 8)                   -- `run_attack_session(p, c, k, bs, ks)`
deriving DecidableEq, Repr

/-- `WR CMD, (OP | bs << 8 | ks << 16)` (R87). -/
def issueTurn (i : Instr) : HostTurn := .write Reg.cmd.number (encode i).toNat

/-- A line as turns (R87, R88). -/
def ScriptLine.expand : ScriptLine → List HostTurn
  | .wr g x => [.write g.number x]
  | .rd g => [.read g.number]
  | .issue i => [issueTurn i]
  | .wait => [.wait]
  | .encrypt p k bs ks =>
    [.write Reg.key.number k, .write Reg.din.number p, issueTurn (.enc bs ks), .wait,
      .read Reg.status.number, .read Reg.dout.number]
  | .decrypt c k bs ks =>
    [.write Reg.key.number k, .write Reg.din.number c, issueTurn (.dec bs ks), .wait,
      .read Reg.status.number, .read Reg.dout.number]
  | .runAttackSession p c k bs ks =>
    [.write Reg.key.number k, .write Reg.din.number p, .write Reg.gct.number c, issueTurn (.atk bs ks), .wait,
      .read Reg.status.number, .read Reg.rkout.number]

/-- A script as turns. -/
def expandScript (lines : List ScriptLine) : List HostTurn := lines.flatMap ScriptLine.expand

end Sys2Proof.Machine
end

