-- ==== Sys2Proof/Machine/Run.lean ====
section
/-! DEFINITION. A whole command: micro-step counts (45_command_sequencer.md R223) and the big step (R225). -/

namespace Sys2Proof.Machine

/-- `n` micro-steps of the command `i`, stopping at the first fault or refusal. -/
def execSteps (i : Instr) : Nat → State → Result
  | 0, s => .next s
  | n + 1, s =>
    match exec i s with
    | .next s' => execSteps i n s'
    | .fault e => .fault e
    | .refused e => .refused e

/-- How many micro-steps a command that passes CHECK takes, from issue to `Finish` (R223). -/
def microSteps (v : Variant) : Instr → Nat
  | .kexp _ _ => 1 + v.rc
  | .enc _ _ => 1 + 2 * v.rc
  | .dec _ _ => 1 + 2 * v.rc
  | .atk _ _ => 1 + v.rc + v.ntrials * (v.rc + 1)

/-- `n` turns of the engine alone, stopping at the first fault or refusal; an idle engine's turns change nothing. -/
def engineTurns : Nat → State → Result
  | 0, s => .next s
  | n + 1, s =>
    match engineTurn s with
    | .next s' => engineTurns n s'
    | .fault e => .fault e
    | .refused e => .refused e

/-- How many of the next `n` turns are the engine's while `DONE` is 0: each `.engine` turn, every turn from a `.wait` on, since it
stays while the host polls in vain, and every turn once the host has none left. -/
def engineTurnsAmong : Nat → List HostTurn → Nat
  | 0, _ => 0
  | n + 1, [] => n + 1
  | n + 1, .wait :: _ => n + 1
  | n + 1, .engine :: rest => engineTurnsAmong n rest + 1
  | n + 1, .read _ :: rest => engineTurnsAmong n rest
  | n + 1, .write _ _ :: rest => engineTurnsAmong n rest
  | n + 1, .reset :: rest => engineTurnsAmong n rest

/-- The engine runs until `BUSY = 0`, at most `n` micro-steps. -/
def runUntilIdle : Nat → State → Result
  | 0, s => .next s
  | n + 1, s =>
    if s.status.busy then
      match engineTurn s with
      | .next s' => runUntilIdle n s'
      | .fault e => .fault e
      | .refused e => .refused e
    else .next s

/-- `Run(s, w)`: the host writes `w` to `CMD` and the engine runs until it is idle again (R225). -/
def runCommand (w : Word) (s : State) : Result := runUntilIdle Config.maxMicroSteps (issue w s)

end Sys2Proof.Machine
end

