-- ==== Sys2Proof/Safety.lean ====
section
/-! DEFINITION. What claims about runs are stated in: the invariants of the reachable states (10_state.md R23, R35 to R37, R41,
R44; 45_command_sequencer.md R222), what a running command has computed so far (R146, R166, R199), and a safe run. -/

namespace Sys2Proof.Machine

/-- `STATUS` and `PHASE` agree (R23). -/
abbrev StatusCoherent (s : State) : Prop :=
  (s.status.busy = true ↔ s.phase ≠ .idle) ∧ ¬(s.status.busy = true ∧ s.status.done = true) ∧
    (s.status.err ≠ 0#4 → s.status.done = true) ∧ s.status.err.toNat ≤ 3

/-- A key bit not recovered has value 0 in the accumulator (R37). -/
abbrev AccumulatorCoherent (s : State) : Prop :=
  ∀ k, k < 32 → s.accv.getLsbD k = false → s.acc.getLsbD k = false

/-- The phases a command passes through after CHECK (R222). -/
def passesThrough : Instr → Phase → Bool
  | .kexp _ _, p => p == .ks
  | .enc _ _, p => p == .ks || p == .enc
  | .dec _ _, p => p == .ks || p == .dec
  | .atk _ _, p => p == .ks || p == .aenc || p == .arec

/-- The operands a command uses are in range (R213 checks 3 to 5). -/
def operandsFit : Instr → Variant → State → Bool
  | .kexp _ _ => keyOperandFits
  | .enc _ _ => cipherOperandsFit
  | .dec _ _ => cipherOperandsFit
  | .atk _ _ => attackOperandsFit

/-- `I` and `J` lie in the ranges of R35, R36 and R41 while their loops run. -/
def CountersInRange (v : Variant) (s : State) : Prop :=
  match s.phase with
  | .idle => True
  | .check => True
  | .ks => s.i.toNat < v.rc
  | .enc => s.i.toNat < v.rc
  | .dec => s.i.toNat < v.rc
  | .aenc => s.i.toNat < v.rc ∧ s.j.toNat < v.ntrials
  | .arec => s.j.toNat < v.ntrials

/-- A word of the variant: below `2^ws`. -/
abbrev Fits (v : Variant) (x : Word) : Prop := x.toNat < 2 ^ v.ws

/-- Both halves are words of the variant. -/
abbrev HalvesFit (v : Variant) (h : Halves) : Prop := Fits v h.left ∧ Fits v h.right

/-- The four words of the key register are words of the variant. -/
abbrev KeyRegFits (v : Variant) (t : KeyReg) : Prop := Fits v t.t0 ∧ Fits v t.t1 ∧ Fits v t.t2 ∧ Fits v t.t3

/-- The entries `RK[0..n-1]` are words of the variant. -/
abbrev RoundKeysFit (v : Variant) (n : Nat) (s : State) : Prop := ∀ k, k < n → Fits v (s.rkAt k)

/-- What the CHECK micro-step and the KS phase load is below its width from CHECK on, in every later phase (R44, R33). -/
abbrev ScheduleRegsFit (v : Variant) (s : State) : Prop := KeyRegFits v s.t ∧ s.swin.toNat < 2 ^ v.lw

/-- The width invariant of a running command (R44): each register is below its width from the micro-step of this command that
loads it on. Until then it may hold what a wider command left (R31, R43; log entry 15); `WithinWidths` is R44 without this
proviso. -/
def WidthsInRange (v : Variant) (s : State) : Prop :=
  match s.phase with
  | .idle => True
  | .check => True
  | .ks => ScheduleRegsFit v s ∧ RoundKeysFit v s.i.toNat s
  | .enc => ScheduleRegsFit v s ∧ RoundKeysFit v v.rc s ∧ HalvesFit v s.halves
  | .dec => ScheduleRegsFit v s ∧ RoundKeysFit v v.rc s ∧ HalvesFit v s.halves
  | .aenc => ScheduleRegsFit v s ∧ RoundKeysFit v v.rc s ∧ HalvesFit v s.halves ∧ Fits v s.acc ∧ Fits v s.accv ∧
      (0 < s.j.toNat → s.cf.toNat < 2 ^ v.bs)
  | .arec => ScheduleRegsFit v s ∧ RoundKeysFit v v.rc s ∧ HalvesFit v s.halves ∧ Fits v s.acc ∧ Fits v s.accv ∧
      s.cf.toNat < 2 ^ v.bs

/-- The widths after a command has ended without error: the registers it loaded, and its result register (R44). -/
def WidthsAtEnd (v : Variant) (s : State) : Instr → Prop
  | .kexp _ _ => ScheduleRegsFit v s ∧ RoundKeysFit v v.rc s
  | .enc _ _ => ScheduleRegsFit v s ∧ RoundKeysFit v v.rc s ∧ HalvesFit v s.halves ∧ s.dout.toNat < 2 ^ v.bs
  | .dec _ _ => ScheduleRegsFit v s ∧ RoundKeysFit v v.rc s ∧ HalvesFit v s.halves ∧ s.dout.toNat < 2 ^ v.bs
  | .atk _ _ => ScheduleRegsFit v s ∧ RoundKeysFit v v.rc s ∧ HalvesFit v s.halves ∧ Fits v s.acc ∧ Fits v s.accv ∧
      s.cf.toNat < 2 ^ v.bs ∧ Fits v s.rkout

/-- An idle engine whose last command ended without error shows that command's word in `CMD`, a supported command, and holds
its widths until the next command issue (R44, R215). -/
def EndedInRange (s : State) : Prop :=
  s.phase = .idle → s.status.done = true → s.status.err = 0#4 →
    ∃ i v, decode s.cmd = some i ∧ lookupVariant i.bs i.ks = some v ∧ WidthsAtEnd v s i

/-- R44 with no proviso, at the widths of the variant `v`: every register it names, the result registers and the whole
round-key store included. It holds from reset on as long as no command wider than `v` passes CHECK. -/
abbrev WithinWidths (v : Variant) (s : State) : Prop :=
  ScheduleRegsFit v s ∧ RoundKeysFit v Config.rkDepth s ∧ HalvesFit v s.halves ∧ Fits v s.acc ∧ Fits v s.accv ∧
    s.cf.toNat < 2 ^ v.bs ∧ s.dout.toNat < 2 ^ v.bs ∧ Fits v s.rkout

/-- The command `i` with parameters `v` has passed CHECK and runs: its word stands in `CMD`, its operands are in range, the phase
is one of its own, the counters and widths are in range. -/
structure Running (i : Instr) (v : Variant) (s : State) : Prop where
  decoded : decode s.cmd = some i
  supported : lookupVariant i.bs i.ks = some v
  operands : operandsFit i v s = true
  phase : passesThrough i s.phase = true
  counters : CountersInRange v s
  widths : WidthsInRange v s

/-- The invariant of the reachable states: `STATUS`, the accumulator, the widths after a command's end, and a running command's
counters, operands and widths. -/
def Coherent (s : State) : Prop :=
  StatusCoherent s ∧ AccumulatorCoherent s ∧ EndedInRange s ∧
    (s.phase = .idle ∨ s.phase = .check ∨ ∃ i v, Running i v s)

/-- What a running command has computed so far: the schedule of `KEY` up to `I` in KS and whole afterwards (R146), the rounds
already done in ENC, DEC and AENC (R166), and the trials already recorded (R199). -/
def OnCourse (v : Variant) (s : State) : Prop :=
  let rk := keySchedule v s.key
  let stored := fun n => ∀ k, k < n → s.rkAt k = rk k
  match s.phase with
  | .idle => True
  | .check => True
  | .ks => s.t = keyRegBefore v s.key s.i.toNat ∧ s.swin = lfsrWindow v s.i.toNat ∧ stored s.i.toNat
  | .enc => stored v.rc ∧ s.halves = encRounds v rk s.i.toNat (split v s.din)
  | .dec => stored v.rc ∧ decRounds v rk (s.i.toNat + 1) s.halves = decRounds v rk v.rc (split v s.din)
  | .aenc => stored v.rc ∧ s.halves = faultedRounds v rk s.j.toNat s.i.toNat (split v s.din) ∧
      s.keyBitMap = sessionMap v rk s.din s.gct s.j.toNat
  | .arec => stored v.rc ∧ s.cf = faultedEncrypt v rk s.j.toNat s.din ∧
      s.keyBitMap = sessionMap v rk s.din s.gct s.j.toNat

/-- Every running command is on course. -/
def ComputesItsCommand (s : State) : Prop := ∀ i v, Running i v s → OnCourse v s

/-- The engine's part of two states is the same: they differ at most in the host agent. -/
def SameEngine (s t : State) : Prop := { s with host := t.host } = t

/-- A run of `n` steps is safe when it does not end in a fault. -/
def SafeRun (n : Nat) (s : State) : Prop := ∀ e, Sys2Proof.core.run n s ≠ .fault e

end Sys2Proof.Machine
end

