-- ==== Sys2Proof/Certificates/Slice0/Obligations.lean ====
section
/-! DEFINITION. The statements about the engine, in the order of the spec's files: encoding, parameters, round function, key
schedule, cipher, attack, reset, host port, the step, the micro-steps, frames, invariants, whole commands. -/

open Sys2Proof Sys2Proof.Machine

/-! ### Encoding (30_encoding.md) -/

/-- Format C, both directions: a word decodes to a command exactly when it is that command's word (R81, R83). -/
def Obligations.DecodeGivesExactlyTheEncodedCommand : Prop :=
  ∀ (i : Instr) (w : Word), decode w = some i ↔ w = encode i

/-- R84: the legal words are those with `RSV = 0`, `OP` in 1..4 and a supported pair; they are exactly twelve, and they are the
words of the table. -/
def Obligations.LegalWordsAreExactlyTwelve : Prop :=
  (∀ w : Word,
    (rsvField w = 0#8 ∧ (opField w = 1#8 ∨ opField w = 2#8 ∨ opField w = 3#8 ∨ opField w = 4#8) ∧
      ((bsField w = 32#8 ∧ ksField w = 64#8) ∨ (bsField w = 48#8 ∧ ksField w = 96#8) ∨
        (bsField w = 64#8 ∧ ksField w = 128#8))) ↔ w ∈ legalWords) ∧
  legalWords.Nodup ∧ legalWords.length = 12 ∧
  (∀ w : Word, w ∈ legalWords ↔ ∃ i, decode w = some i ∧ i.wellFormed = true) ∧
  encode (.enc 32 64) = 0x00402001#32 ∧ encode (.enc 48 96) = 0x00603001#32 ∧ encode (.enc 64 128) = 0x00804001#32 ∧
  encode (.dec 32 64) = 0x00402002#32 ∧ encode (.dec 48 96) = 0x00603002#32 ∧ encode (.dec 64 128) = 0x00804002#32 ∧
  encode (.atk 32 64) = 0x00402003#32 ∧ encode (.atk 48 96) = 0x00603003#32 ∧ encode (.atk 64 128) = 0x00804003#32 ∧
  encode (.kexp 32 64) = 0x00402004#32 ∧ encode (.kexp 48 96) = 0x00603004#32 ∧ encode (.kexp 64 128) = 0x00804004#32

/-- R85 item 1: the words that spell no command are those with `RSV ≠ 0` or `OP` not in 1..4, whatever the sizes. -/
def Obligations.RejectedWordsHaveNoOperation : Prop :=
  ∀ w : Word, decode w = none ↔
    rsvField w ≠ 0#8 ∨ (opField w ≠ 1#8 ∧ opField w ≠ 2#8 ∧ opField w ≠ 3#8 ∧ opField w ≠ 4#8)

/-- Words written out from R81 and R83 and the word rows of 95_test_vectors.md section 9. -/
def Obligations.SampleWordsDecode : Prop :=
  decode 0b00000000010000000010000000000001#32 = some (.enc 32 64) ∧
  decode 0b00000000011000000011000000000010#32 = some (.dec 48 96) ∧
  decode 0b00000000100000000100000000000011#32 = some (.atk 64 128) ∧
  decode 0b00000000010000000010000000000100#32 = some (.kexp 32 64) ∧
  decode 0x00602001#32 = some (.enc 32 96) ∧ decode 0x00000000#32 = none ∧ decode 0x00402005#32 = none ∧
  decode 0x01402001#32 = none

/-! ### Parameters and the constant sequence (40_parameters_and_sequence.md) -/

/-- R100 (exact match only) and the whole table R102. -/
def Obligations.ParameterTable : Prop :=
  (∀ bs ks : BitVec 8, lookup bs ks =
    if bs = 32#8 ∧ ks = 64#8 then some 32 else if bs = 48#8 ∧ ks = 96#8 then some 36
    else if bs = 64#8 ∧ ks = 128#8 then some 44 else none) ∧
  (Variant.v32.bs = 32 ∧ Variant.v32.ks = 64 ∧ Variant.v32.ws = 16 ∧ Variant.v32.rc = 32 ∧ Variant.v32.lw = 5 ∧
    Variant.v32.ntrials = 10 ∧ Variant.v32.kconst = 0xFFFC#32 ∧ Variant.v32.faultRound = 30) ∧
  (Variant.v48.bs = 48 ∧ Variant.v48.ks = 96 ∧ Variant.v48.ws = 24 ∧ Variant.v48.rc = 36 ∧ Variant.v48.lw = 5 ∧
    Variant.v48.ntrials = 14 ∧ Variant.v48.kconst = 0xFFFFFC#32 ∧ Variant.v48.faultRound = 34) ∧
  (Variant.v64.bs = 64 ∧ Variant.v64.ks = 128 ∧ Variant.v64.ws = 32 ∧ Variant.v64.rc = 44 ∧ Variant.v64.lw = 6 ∧
    Variant.v64.ntrials = 22 ∧ Variant.v64.kconst = 0xFFFFFFFC#32 ∧ Variant.v64.faultRound = 42)

/-- R105 and the length of R103, R104: the sequence has length exactly round_count, starts with ones over the seed width, and
satisfies the recurrence. -/
def Obligations.ConstantSequenceRecurrence : Prop :=
  ∀ v : Variant, (seq v).length = v.rc ∧ (∀ n, n < v.lw → seqBit v n = true) ∧
    (v.lw = 5 → ∀ n, 5 ≤ n → n < v.rc → seqBit v n = (seqBit v (n - 3) ^^ seqBit v (n - 5))) ∧
    (v.lw = 6 → ∀ n, 6 ≤ n → n < v.rc → seqBit v n = (seqBit v (n - 5) ^^ seqBit v (n - 6)))

/-- R107: before round `i` the window holds the sequence bits from `i` on, so `LfsrOut` gives `seq(rc)[i]`. -/
def Obligations.WindowProducesTheSequence : Prop :=
  ∀ (v : Variant) (i : Nat), i < v.rc → lfsrOut (lfsrWindow v i) = seqBit v i ∧
    ∀ k, k < v.lw → i + k < v.rc → (lfsrWindow v i).getLsbD k = seqBit v (i + k)

/-! ### Round function (41_round_function.md) -/

/-- R120: `ROL` has a value only for 0 < r < ws; there it is the formula, and bit i of it is bit (i - r) mod ws. -/
def Obligations.RotationIsPartialAndRotates : Prop :=
  ∀ (v : Variant) (x : Word) (r : Nat), Fits v x →
    (¬(0 < r ∧ r < v.ws) → rol v x r = none) ∧
    (0 < r → r < v.ws → ∃ y, rol v x r = some y ∧
      y.toNat = ((x.toNat <<< r) ||| (x.toNat >>> (v.ws - r))) % 2 ^ v.ws ∧
      ∀ i, i < v.ws → y.getLsbD i = x.getLsbD (bitIndex v ((i : Int) - (r : Int))))

/-- R122: `f(x)[i] = (x[i] & x[i-5]) ^ x[i-1]`, indices modulo ws. -/
def Obligations.RoundFunctionBitByBit : Prop :=
  ∀ (v : Variant) (x : Word) (i : Nat), Fits v x → i < v.ws →
    (f v x).getLsbD i =
      ((x.getLsbD i && x.getLsbD (bitIndex v ((i : Int) - 5))) ^^ x.getLsbD (bitIndex v ((i : Int) - 1)))

/-- R125: each Feistel update undoes the other, for every L, R, k and every ws. -/
def Obligations.FeistelUpdatesUndoEachOther : Prop :=
  ∀ (v : Variant) (h : Halves) (k : Word), inv v (fwd v h k) k = h ∧ fwd v (inv v h k) k = h

/-- R126: width closure of `ROL`, `f`, `Fwd` and `Inv`. -/
def Obligations.WidthClosure : Prop :=
  ∀ (v : Variant) (x k : Word) (h : Halves), Fits v x → Fits v k → HalvesFit v h →
    (∀ r y, rol v x r = some y → Fits v y) ∧ Fits v (f v x) ∧ HalvesFit v (fwd v h k) ∧ HalvesFit v (inv v h k)

/-- R129: `f` commutes with rotation. -/
def Obligations.RoundFunctionCommutesWithRotation : Prop :=
  ∀ (v : Variant) (x y : Word) (r : Nat), Fits v x → rol v x r = some y → rol v (f v x) r = some (f v y)

/-- R130: the difference of `f` under one flipped input bit, indices modulo ws; the three positions are distinct. -/
def Obligations.DifferenceUnderOneFlippedBit : Prop :=
  ∀ (v : Variant) (x : Word) (j i : Nat), Fits v x → j < v.ws → i < v.ws →
    j ≠ bitIndex v ((j : Int) + 1) ∧ j ≠ bitIndex v ((j : Int) + 5) ∧
    bitIndex v ((j : Int) + 1) ≠ bitIndex v ((j : Int) + 5) ∧
    (f v x ^^^ f v (x ^^^ BitVec.twoPow 32 j)).getLsbD i =
      if i = j then x.getLsbD (bitIndex v ((j : Int) - 5))
      else if i = bitIndex v ((j : Int) + 1) then true
      else if i = bitIndex v ((j : Int) + 5) then x.getLsbD (bitIndex v ((j : Int) + 5))
      else false

/-! ### Key schedule (42_key_schedule.md) -/

/-- R140: the key register is loaded least significant word first, the four words make up the key, and the two examples. -/
def Obligations.KeyLoadsLeastSignificantWordFirst : Prop :=
  (∀ (v : Variant) (key : KeyBits),
    (∀ k, k < 4 → (keyWord v key k).toNat = (key.toNat >>> (k * v.ws)) % 2 ^ v.ws) ∧
    keyWords v key = { t0 := keyWord v key 0, t1 := keyWord v key 1, t2 := keyWord v key 2, t3 := keyWord v key 3 } ∧
    (key.toNat < 2 ^ v.ks → key.toNat = (keyWord v key 0).toNat ||| ((keyWord v key 1).toNat <<< v.ws) |||
      ((keyWord v key 2).toNat <<< (2 * v.ws)) ||| ((keyWord v key 3).toNat <<< (3 * v.ws)))) ∧
  keyWords .v32 0x1918111009080100#128 =
    { t0 := 0x0100#32, t1 := 0x0908#32, t2 := 0x1110#32, t3 := 0x1918#32 } ∧
  keyWords .v48 0x1A19181211100A0908020100#128 =
    { t0 := 0x020100#32, t1 := 0x0A0908#32, t2 := 0x121110#32, t3 := 0x1A1918#32 }

/-- R145 and R142/R144: the first four round keys are the key's words, every later one follows by the recurrence, all are words
of the variant, and the source's three-step round is the plain shift. -/
def Obligations.RoundKeyRecurrence : Prop :=
  ∀ (v : Variant) (key : KeyBits),
    (∀ n, n < 4 → keySchedule v key n = keyWord v key n) ∧
    (∀ n, n + 5 ≤ v.rc → keySchedule v key (n + 4) =
      keySchedule v key n ^^^ f v (keySchedule v key (n + 1)) ^^^ v.kconst ^^^ (BitVec.ofBool (seqBit v n)).setWidth 32) ∧
    (∀ n, Fits v (keySchedule v key n)) ∧
    (∀ (z : Bool) (t : KeyReg), ksRoundBySteps v z t = ksRound v z t)

/-! ### Cipher engine (43_cipher_engine.md) -/

/-- R165: the left half is the upper ws bits, the right half the lower ws bits, on input and on output; a narrower block lies in
the low bs bits; and the example. -/
def Obligations.BlocksSplitAndJoin : Prop :=
  split .v32 0x65656877#64 = { left := 0x6565#32, right := 0x6877#32 } ∧
  ∀ (v : Variant), (∀ p : Block, p.toNat < 2 ^ v.bs →
      (split v p).left.toNat = p.toNat / 2 ^ v.ws ∧ (split v p).right.toNat = p.toNat % 2 ^ v.ws ∧
      join v (split v p) = p) ∧
    (∀ h : Halves, HalvesFit v h → (join v h).toNat = h.left.toNat * 2 ^ v.ws + h.right.toNat ∧
      (join v h).toNat < 2 ^ v.bs ∧ split v (join v h) = h)

/-- R164: `Decrypt` undoes `Encrypt` and the reverse, on every block of every variant under every key; so `Encrypt` with a fixed
key is a bijection on the blocks of the variant. -/
def Obligations.DecryptAndEncryptAreInverse : Prop :=
  ∀ (v : Variant) (key : KeyBits),
    (∀ p : Block, p.toNat < 2 ^ v.bs →
      decrypt v (keySchedule v key) (encrypt v (keySchedule v key) p) = p ∧
      encrypt v (keySchedule v key) (decrypt v (keySchedule v key) p) = p ∧
      (encrypt v (keySchedule v key) p).toNat < 2 ^ v.bs ∧ (decrypt v (keySchedule v key) p).toNat < 2 ^ v.bs) ∧
    Set.BijOn (encrypt v (keySchedule v key)) {p | p.toNat < 2 ^ v.bs} {p | p.toNat < 2 ^ v.bs}

/-! ### Fault-attack engine (44_fault_attack_engine.md) -/

/-- R187, R189: in every trial of a session the two spellings of the observed positions name the same bits, and the source's
MSB-first equations recover the same two bits as the word form. -/
def Obligations.RecoveryFormsAgree : Prop :=
  ∀ (v : Variant) (j : Nat) (c cf : Block), j < v.ntrials →
    j + 5 < v.ws ∧ v.ws - j - 1 = bitpos v (j : Int) ∧ v.ws - j - 6 = bitpos v ((j : Int) + 5) ∧
    recoverTrialMsb v j c cf = recoverTrial v j c cf

/-- The heart of R194: with the genuine ciphertext, each trial recovers the true bits `(j-5) mod ws` and `j+5` of the last round
key (so R196: two writes to one bit never differ). -/
def Obligations.TrialRecoversLastRoundKeyBits : Prop :=
  ∀ (v : Variant) (key : KeyBits) (p : Block) (j : Nat), p.toNat < 2 ^ v.bs → j < v.ntrials →
    let rk := keySchedule v key
    let q := recoverTrial v j (encrypt v rk p) (faultedEncrypt v rk j p)
    q.ka = (rk (v.rc - 1)).getLsbD (bitIndex v ((j : Int) - 5)) ∧ q.kb = (rk (v.rc - 1)).getLsbD (j + 5)

/-- R195: whatever the ciphertext, a session writes every key bit: at its end `ACCV = 2^ws - 1`. -/
def Obligations.SessionRecoversEveryKeyBit : Prop :=
  ∀ (v : Variant) (rk : Nat → Word) (p c : Block), (sessionMap v rk p c v.ntrials).accv.toNat = 2 ^ v.ws - 1

/-- R194: if `GCT` holds the encryption of `DIN` under `KEY`, then after `ATK` (which ends without error) `RKOUT` is the last entry
of the key schedule, `RK[rc-1]`, for every key and plaintext of every variant; and the same of the session as a function. -/
def Obligations.AttackRecoversLastRoundKey : Prop :=
  (∀ (v : Variant) (key : KeyBits) (p : Block), p.toNat < 2 ^ v.bs →
    attackSession v p (encrypt v (keySchedule v key) p) key = keySchedule v key (v.rc - 1)) ∧
  ∀ (bs ks : BitVec 8) (v : Variant) (s : State), s.status.busy = false → lookupVariant bs ks = some v →
    s.key.toNat < 2 ^ v.ks → s.din.toNat < 2 ^ v.bs → s.gct = encrypt v (keySchedule v s.key) s.din →
    ∃ t, runCommand (encode (.atk bs ks)) s = .next t ∧ t.status = { busy := false, done := true, err := 0#4 } ∧
      t.rkout = t.rkAt (v.rc - 1) ∧ t.rkout = keySchedule v s.key (v.rc - 1)

/-! ### Reset (10_state.md R45, 70_reset_and_hazards.md R280) -/

/-- R45: after reset every piece of the engine's state is zero and `PHASE` is IDLE. -/
def Obligations.ResetLeavesEverythingZero : Prop :=
  let s := State.reset
  s.cmd = 0#32 ∧ s.status = { busy := false, done := false, err := 0#4 } ∧ s.status.word = 0#32 ∧ s.key = 0#128 ∧
    s.din = 0#64 ∧ s.gct = 0#64 ∧ s.dout = 0#64 ∧ s.rkout = 0#32 ∧ (∀ k, k < 44 → s.rkAt k = 0#32) ∧
    s.phase = .idle ∧ s.t = { t0 := 0#32, t1 := 0#32, t2 := 0#32, t3 := 0#32 } ∧ s.swin = 0#6 ∧ s.l = 0#32 ∧
    s.r = 0#32 ∧ s.i = 0#6 ∧ s.j = 0#5 ∧ s.acc = 0#32 ∧ s.accv = 0#32 ∧ s.cf = 0#64

/-- R280: the reset event, in any state, busy or not, gives the reset state; the model's choice (log entry 7) is that the host
agent keeps its further turns and what it has read. -/
def Obligations.ResetEventFromAnyState : Prop :=
  ∀ (s : State) (rest : List HostTurn), s.host.script = .reset :: rest →
    step s = .next { State.reset with host := { script := rest, seen := s.host.seen } }

/-! ### Host port (20_memory.md) -/

/-- R61: the register map is one to one, and a number outside it names nothing. -/
def Obligations.RegisterMap : Prop :=
  (∀ (n : Nat) (g : Reg), Reg.ofNumber n = some g ↔ g.number = n) ∧
  (∀ n : Nat, Reg.ofNumber n = none ↔ (7 ≤ n ∧ n ≤ 0x3F) ∨ 0x6C ≤ n)

/-- R62, R64: a host read of a mapped register, busy or not, gives the host its whole value and changes nothing of the engine; a
read of an unmapped number is refused. (That the value goes to `host.seen` is the model's choice, log entry 5.) -/
def Obligations.HostReadReturnsTheRegister : Prop :=
  ∀ (s : State) (n : Nat) (rest : List HostTurn), s.host.script = .read n :: rest →
    (∀ x, (n = 0x00 ∧ x = s.cmd.toNat) ∨
        (n = 0x01 ∧ x = s.status.busy.toNat + 2 * s.status.done.toNat + 16 * s.status.err.toNat) ∨
        (n = 0x02 ∧ x = s.key.toNat) ∨ (n = 0x03 ∧ x = s.din.toNat) ∨ (n = 0x04 ∧ x = s.gct.toNat) ∨
        (n = 0x05 ∧ x = s.dout.toNat) ∨ (n = 0x06 ∧ x = s.rkout.toNat) ∨
        (∃ k, k < 44 ∧ n = 0x40 + k ∧ x = (s.rkAt k).toNat) →
      step s = .next { s with host := { script := rest, seen := s.host.seen ++ [(n, x)] } }) ∧
    ((7 ≤ n ∧ n ≤ 0x3F) ∨ 0x6C ≤ n → step s = .refused (.unmappedRegister n))

/-- R63, R71 (c), R284: while busy, a host write is dropped, and a host read changes nothing of the engine. That a busy write to an
unmapped number, or of a value wider than the register, is dropped too is the model's reading of R63 (log entry 8). -/
def Obligations.HostCannotDisturbARunningCommand : Prop :=
  ∀ (s : State) (n x : Nat) (rest : List HostTurn), s.status.busy = true →
    (s.host.script = .write n x :: rest → step s = .next { s with host := { s.host with script := rest } }) ∧
    (s.host.script = .read n :: rest → (Reg.ofNumber n).isSome = true → ∃ t, step s = .next t ∧ SameEngine s t)

/-- R63, R64, R211: a host write while not busy: `CMD` issues a command, the operand registers are stored, read-only registers
ignore it, anything else is refused. -/
def Obligations.HostWriteWhileIdle : Prop :=
  ∀ (s : State) (n x : Nat) (rest : List HostTurn), s.status.busy = false → s.host.script = .write n x :: rest →
    let s' := { s with host := { s.host with script := rest } }
    (n = 0x00 → x < 2 ^ 32 → step s = .next { s' with
      cmd := BitVec.ofNat 32 x, status := { busy := true, done := false, err := 0#4 }, phase := .check }) ∧
    (n = 0x02 → x < 2 ^ 128 → step s = .next { s' with key := BitVec.ofNat 128 x }) ∧
    (n = 0x03 → x < 2 ^ 64 → step s = .next { s' with din := BitVec.ofNat 64 x }) ∧
    (n = 0x04 → x < 2 ^ 64 → step s = .next { s' with gct := BitVec.ofNat 64 x }) ∧
    (n = 0x05 → x < 2 ^ 64 → step s = .next s') ∧
    (n = 0x01 ∨ n = 0x06 ∨ (0x40 ≤ n ∧ n ≤ 0x6B) → x < 2 ^ 32 → step s = .next s') ∧
    ((7 ≤ n ∧ n ≤ 0x3F) ∨ 0x6C ≤ n → step s = .refused (.unmappedRegister n))

/-! ### The step (45_command_sequencer.md) -/

/-- A step runs the decoded command: while busy, when the engine has the turn (its own, or because the host has none left, or
because the host is polling), the step is the micro-step of the command in `CMD`, after taking the turn off the script. -/
def Obligations.StepRunsTheDecodedCommand : Prop :=
  ∀ (s : State) (i : Instr) (rest : List HostTurn), s.status.busy = true → decode s.cmd = some i →
    (s.host.script = [] → step s = exec i s) ∧
    (s.host.script = .engine :: rest → step s = exec i { s with host := { s.host with script := rest } }) ∧
    (s.host.script = .wait :: rest → s.status.done = false → step s = exec i s)

/-- A table word placed by `withFetchWord` is run by the very next step, as command issue (R211) would start it. -/
def Obligations.FetchedWordRunsNext : Prop :=
  ∀ (s : State) (nbits w : Nat) (i : Instr), decodeTableWord nbits w = some i →
    step (s.withFetchWord nbits w) = exec i { s with
      cmd := encode i, status := { busy := true, done := false, err := 0#4 }, phase := .check }

/-- R85 item 1, R254, R256: a word that spells no command ends in CHECK with IllegalCommand when the engine has the turn (its own,
or because the host has none left, or because the host is polling); only `STATUS` and `PHASE` change. -/
def Obligations.IllegalWordTakesIllegalCommand : Prop :=
  ∀ (s : State) (rest : List HostTurn), s.status.busy = true → s.phase = .check →
    rsvField s.cmd ≠ 0#8 ∨ (opField s.cmd ≠ 1#8 ∧ opField s.cmd ≠ 2#8 ∧ opField s.cmd ≠ 3#8 ∧ opField s.cmd ≠ 4#8) →
    let t := { s with status := { busy := false, done := true, err := 3#4 }, phase := .idle }
    (s.host.script = [] → step s = .next t) ∧
    (s.host.script = .engine :: rest → step s = .next { t with host := { s.host with script := rest } }) ∧
    (s.host.script = .wait :: rest → s.status.done = false → step s = .next t)

/-- R212, R268: an idle engine has no micro-step. That its turn is then a step that changes nothing, and that `WAIT` goes on
when `DONE` is set, are the model's choices (log entries 3 and 6). -/
def Obligations.IdleEngineDoesNothing : Prop :=
  ∀ (s : State) (rest : List HostTurn), s.status.busy = false →
    (s.host.script = [] → step s = .next s) ∧
    (s.host.script = .engine :: rest → step s = .next { s with host := { s.host with script := rest } }) ∧
    (s.host.script = .wait :: rest → s.status.done = false → step s = .next s) ∧
    (s.host.script = .wait :: rest → s.status.done = true →
      step s = .next { s with host := { script := rest, seen := s.host.seen ++ [(1, s.status.word.toNat)] } })

/-! ### The micro-steps -/

/-- R253: any command whose size pair is not supported ends in CHECK with UnsupportedParameters, before any operand is looked at;
only `STATUS` and `PHASE` change. -/
def Obligations.CheckRaisesUnsupportedParameters : Prop :=
  ∀ (i : Instr) (s : State), s.phase = .check → i.wellFormed = false →
    exec i s = .next { s with status := { busy := false, done := true, err := 2#4 }, phase := .idle }

/-- R252: with supported parameters, an operand the command uses that is out of range ends it in CHECK with InvalidArgument; only
`STATUS` and `PHASE` change. -/
def Obligations.CheckRaisesInvalidArgument : Prop :=
  ∀ (i : Instr) (v : Variant) (s : State), s.phase = .check → lookupVariant i.bs i.ks = some v →
    2 ^ v.ks ≤ s.key.toNat ∨ (i.op ≠ 4#8 ∧ 2 ^ v.bs ≤ s.din.toNat) ∨ (i.op = 3#8 ∧ 2 ^ v.bs ≤ s.gct.toNat) →
    exec i s = .next { s with status := { busy := false, done := true, err := 1#4 }, phase := .idle }

/-- R214: when all checks pass, the first micro-step of every command loads `T`, `S` and `I` and enters KS. -/
def Obligations.CheckPassesAndLoads : Prop :=
  ∀ (i : Instr) (v : Variant) (s : State), s.phase = .check → lookupVariant i.bs i.ks = some v →
    s.key.toNat < 2 ^ v.ks → (i.op ≠ 4#8 → s.din.toNat < 2 ^ v.bs) → (i.op = 3#8 → s.gct.toNat < 2 ^ v.bs) →
    let word := fun k : Nat => BitVec.ofNat 32 ((s.key.toNat >>> (k * v.ws)) % 2 ^ v.ws)
    exec i s = .next { s with
      t := { t0 := word 0, t1 := word 1, t2 := word 2, t3 := word 3 }
      swin := BitVec.ofNat 6 (2 ^ v.lw - 1), i := 0#6, phase := .ks }

/-- R216: a KS micro-step before the last is one key-schedule round, for every command. -/
def Obligations.KeyScheduleMicroStep : Prop :=
  ∀ (i : Instr) (v : Variant) (s : State), s.phase = .ks → lookupVariant i.bs i.ks = some v → s.i.toNat + 1 < v.rc →
    exec i s = .next { s with
      rk := s.rk.setIfInBounds s.i.toNat s.t.t0
      t := { t0 := s.t.t1, t1 := s.t.t2, t2 := s.t.t3
             t3 := s.t.t0 ^^^ f v s.t.t1 ^^^ (v.kconst ^^^ (BitVec.ofBool (s.swin.getLsbD 0)).setWidth 32) }
      swin := lfsrStep v s.swin
      i := BitVec.ofNat 6 (s.i.toNat + 1) }

/-- R216, R217: `KEXP` completes: its last KS micro-step stores the last round key and ends the command without error. -/
def Obligations.KexpCompletes : Prop :=
  ∀ (bs ks : BitVec 8) (v : Variant) (s : State), s.phase = .ks → lookupVariant bs ks = some v → s.i.toNat + 1 = v.rc →
    exec (.kexp bs ks) s = .next { s with
      rk := s.rk.setIfInBounds s.i.toNat s.t.t0
      t := { t0 := s.t.t1, t1 := s.t.t2, t2 := s.t.t3
             t3 := s.t.t0 ^^^ f v s.t.t1 ^^^ (v.kconst ^^^ (BitVec.ofBool (s.swin.getLsbD 0)).setWidth 32) }
      swin := lfsrStep v s.swin
      status := { busy := false, done := true, err := 0#4 }, phase := .idle }

/-- R217: the last KS micro-step of `ENC`, `DEC` and `ATK` loads the halves of `DIN` and enters the command's own phase. -/
def Obligations.ScheduleEndsInTheCommandsPhase : Prop :=
  ∀ (bs ks : BitVec 8) (v : Variant) (s : State), s.phase = .ks → lookupVariant bs ks = some v → s.i.toNat + 1 = v.rc →
    let s' := { s with
      rk := s.rk.setIfInBounds s.i.toNat s.t.t0
      t := { t0 := s.t.t1, t1 := s.t.t2, t2 := s.t.t3
             t3 := s.t.t0 ^^^ f v s.t.t1 ^^^ (v.kconst ^^^ (BitVec.ofBool (s.swin.getLsbD 0)).setWidth 32) }
      swin := lfsrStep v s.swin
      l := upperHalf v s.din, r := lowerHalf v s.din }
    exec (.enc bs ks) s = .next { s' with i := 0#6, phase := .enc } ∧
    exec (.dec bs ks) s = .next { s' with i := BitVec.ofNat 6 (v.rc - 1), phase := .dec } ∧
    exec (.atk bs ks) s = .next { s' with i := 0#6, phase := .aenc, j := 0#5, acc := 0#32, accv := 0#32 }

/-- R218: an ENC micro-step is one forward round; the last one writes `DOUT` from the new halves and ends the command. -/
def Obligations.EncRoundAndCompletion : Prop :=
  ∀ (bs ks : BitVec 8) (v : Variant) (s : State), s.phase = .enc → lookupVariant bs ks = some v →
    let newL := s.r ^^^ f v s.l ^^^ s.rkAt s.i.toNat
    (s.i.toNat + 1 < v.rc →
      exec (.enc bs ks) s = .next { s with l := newL, r := s.l, i := BitVec.ofNat 6 (s.i.toNat + 1) }) ∧
    (s.i.toNat + 1 = v.rc →
      exec (.enc bs ks) s = .next { s with
        l := newL, r := s.l, dout := (newL.setWidth 64 <<< v.ws) ||| s.l.setWidth 64
        status := { busy := false, done := true, err := 0#4 }, phase := .idle })

/-- R219: a DEC micro-step is one inverse round, counting down; the one with `I = 0` writes `DOUT` and ends the command. -/
def Obligations.DecRoundAndCompletion : Prop :=
  ∀ (bs ks : BitVec 8) (v : Variant) (s : State), s.phase = .dec → lookupVariant bs ks = some v →
    let newR := s.l ^^^ f v s.r ^^^ s.rkAt s.i.toNat
    (0 < s.i.toNat → s.i.toNat < v.rc →
      exec (.dec bs ks) s = .next { s with l := s.r, r := newR, i := BitVec.ofNat 6 (s.i.toNat - 1) }) ∧
    (s.i.toNat = 0 →
      exec (.dec bs ks) s = .next { s with
        l := s.r, r := newR, dout := (s.r.setWidth 64 <<< v.ws) ||| newR.setWidth 64
        status := { busy := false, done := true, err := 0#4 }, phase := .idle })

/-- R220, R183: an AENC micro-step is one forward round; in round `rc - 2`, and only there, bit `J` of the left half is flipped
first; the last one writes `CF` and enters AREC. -/
def Obligations.FaultedRoundOfATrial : Prop :=
  ∀ (bs ks : BitVec 8) (v : Variant) (s : State), s.phase = .aenc → lookupVariant bs ks = some v →
    let lf := if s.i.toNat = v.rc - 2 then s.l ^^^ BitVec.twoPow 32 s.j.toNat else s.l
    let newL := s.r ^^^ f v lf ^^^ s.rkAt s.i.toNat
    (s.i.toNat + 1 < v.rc →
      exec (.atk bs ks) s = .next { s with l := newL, r := lf, i := BitVec.ofNat 6 (s.i.toNat + 1) }) ∧
    (s.i.toNat + 1 = v.rc →
      exec (.atk bs ks) s = .next { s with
        l := newL, r := lf, cf := (newL.setWidth 64 <<< v.ws) ||| lf.setWidth 64, phase := .arec })

/-- R221: an AREC micro-step writes the two recovered bits; before the last trial it starts the next one, and in the last it
writes `RKOUT` and ends the command. `A` and `V` are the accumulator registers with bits `a` and `b` written. -/
def Obligations.RecoveryStepAndAttackCompletion : Prop :=
  ∀ (bs ks : BitVec 8) (v : Variant) (s : State) (A V : Word), s.phase = .arec → lookupVariant bs ks = some v →
    s.j.toNat < v.ntrials →
    let j := s.j.toNat
    let x := upperHalf v s.gct
    let y := lowerHalf v s.gct
    let d := y ^^^ lowerHalf v s.cf
    let a := bitIndex v ((j : Int) - 5)
    let b := j + 5
    let ka := d.getLsbD j ^^ (y.getLsbD a && y.getLsbD (bitIndex v ((j : Int) - 10)))
      ^^ y.getLsbD (bitIndex v ((j : Int) - 6)) ^^ x.getLsbD a
    let kb := d.getLsbD b ^^ (y.getLsbD b && y.getLsbD j) ^^ y.getLsbD (j + 4) ^^ x.getLsbD b
    (∀ k, k < 32 → A.getLsbD k = if k = b then kb else if k = a then ka else s.acc.getLsbD k) →
    (∀ k, k < 32 → V.getLsbD k = if k = b ∨ k = a then true else s.accv.getLsbD k) →
    (j + 1 < v.ntrials →
      exec (.atk bs ks) s = .next { s with
        acc := A, accv := V, j := BitVec.ofNat 5 (j + 1), l := upperHalf v s.din, r := lowerHalf v s.din, i := 0#6
        phase := .aenc }) ∧
    (j + 1 = v.ntrials →
      exec (.atk bs ks) s = .next { s with
        acc := A, accv := V, rkout := A, status := { busy := false, done := true, err := 0#4 }, phase := .idle })

/-! ### Frames -/

/-- R226, R71: no micro-step writes `CMD`, `KEY`, `DIN` or `GCT` or touches the host, and none depends on what the host does. -/
def Obligations.MicroStepsLeaveOperandsAndHost : Prop :=
  ∀ (i : Instr) (s t : State), exec i s = .next t →
    t.cmd = s.cmd ∧ t.key = s.key ∧ t.din = s.din ∧ t.gct = s.gct ∧ t.host = s.host ∧
    ∀ h : HostAgent, exec i { s with host := h } = .next { t with host := h }

/-- R47: what each command leaves untouched in every micro-step of its own phases. -/
def Obligations.FrameOfEachCommand : Prop :=
  ∀ (bs ks : BitVec 8) (s t : State),
    (s.phase = .check ∨ s.phase = .ks ∨ s.phase = .enc → exec (.enc bs ks) s = .next t →
      t.rkout = s.rkout ∧ t.j = s.j ∧ t.acc = s.acc ∧ t.accv = s.accv ∧ t.cf = s.cf) ∧
    (s.phase = .check ∨ s.phase = .ks ∨ s.phase = .dec → exec (.dec bs ks) s = .next t →
      t.rkout = s.rkout ∧ t.j = s.j ∧ t.acc = s.acc ∧ t.accv = s.accv ∧ t.cf = s.cf) ∧
    (s.phase = .check ∨ s.phase = .ks ∨ s.phase = .aenc ∨ s.phase = .arec → exec (.atk bs ks) s = .next t →
      t.dout = s.dout) ∧
    (s.phase = .check ∨ s.phase = .ks → exec (.kexp bs ks) s = .next t →
      t.dout = s.dout ∧ t.rkout = s.rkout ∧ t.l = s.l ∧ t.r = s.r ∧ t.j = s.j ∧ t.acc = s.acc ∧ t.accv = s.accv ∧
      t.cf = s.cf)

/-- R30, R31: the round-key store is written only in KS, only in entry `I`; with `I < rc` the entries from `rc` up are never
written, so they stay as an older command left them. -/
def Obligations.StoreWrittenOnlyByTheKeySchedule : Prop :=
  ∀ (i : Instr) (v : Variant) (s t : State), exec i s = .next t → lookupVariant i.bs i.ks = some v →
    (s.phase ≠ .ks → t.rk = s.rk) ∧
    (∀ k, k ≠ s.i.toNat → t.rkAt k = s.rkAt k) ∧
    (s.i.toNat < v.rc → ∀ k, v.rc ≤ k → t.rkAt k = s.rkAt k)

/-- R27, R28, R285: `DOUT` and `RKOUT` change only in the micro-step that ends the command without error, and `STATUS` changes
only in the micro-step that ends it. -/
def Obligations.ResultsChangeOnlyAtCommandEnd : Prop :=
  ∀ (i : Instr) (s t : State), exec i s = .next t →
    (t.phase ≠ .idle → t.status = s.status ∧ t.dout = s.dout ∧ t.rkout = s.rkout) ∧
    (t.phase = .idle → t.status.busy = false ∧ t.status.done = true) ∧
    (t.dout ≠ s.dout ∨ t.rkout ≠ s.rkout → t.phase = .idle ∧ t.status = { busy := false, done := true, err := 0#4 })

/-! ### Invariants -/

/-- The reset state is coherent and on course. -/
def Obligations.ResetIsCoherent : Prop := Coherent State.reset ∧ ComputesItsCommand State.reset

/-- R23, R35, R36, R37, R41, R44, R222: every step, of the engine or of the host, keeps the invariant. R44's bound on a register
is in it from the micro-step of the running command that loads the register on (log entry 15), and after a command that ended
without error until the next command issue. -/
def Obligations.EveryStepKeepsCoherence : Prop :=
  ∀ s t : State, Coherent s → step s = .next t → Coherent t

/-- R212, R226: in a coherent state no step ends in a fault; a step that is refused is a host read or write, never an engine turn;
and a busy engine with the turn always has a micro-step. -/
def Obligations.CoherentMachineNeverFaults : Prop :=
  ∀ s : State, Coherent s →
    (∀ e, step s ≠ .fault e) ∧
    (∀ e, step s = .refused e → ∃ n x rest, s.host.script = .read n :: rest ∨ s.host.script = .write n x :: rest) ∧
    (s.status.busy = true → ∃ t, engineTurn s = .next t)

/-- R146, R166, R199, R289: every step keeps a running command on course: the store holds the schedule of `KEY`, the halves the
rounds done so far, the accumulator the trials recorded so far. -/
def Obligations.EveryStepStaysOnCourse : Prop :=
  ∀ s t : State, Coherent s → ComputesItsCommand s → step s = .next t → ComputesItsCommand t

/-! ### Whole commands -/

/-- R147: `KEXP` from command issue to command end. -/
def Obligations.KexpExpandsTheKey : Prop :=
  ∀ (bs ks : BitVec 8) (v : Variant) (s : State), s.status.busy = false → lookupVariant bs ks = some v →
    s.key.toNat < 2 ^ v.ks →
    ∃ t, runCommand (encode (.kexp bs ks)) s = .next t ∧ t.cmd = encode (.kexp bs ks) ∧
      t.status = { busy := false, done := true, err := 0#4 } ∧ t.phase = .idle ∧
      (∀ k, k < v.rc → t.rkAt k = keySchedule v s.key k) ∧ (∀ k, v.rc ≤ k → t.rkAt k = s.rkAt k) ∧
      t.dout = s.dout ∧ t.rkout = s.rkout ∧ t.key = s.key ∧ t.din = s.din ∧ t.gct = s.gct ∧ t.host = s.host

/-- R162, and R44 of `DOUT`: `ENC` from command issue to command end. -/
def Obligations.EncEncryptsTheBlock : Prop :=
  ∀ (bs ks : BitVec 8) (v : Variant) (s : State), s.status.busy = false → lookupVariant bs ks = some v →
    s.key.toNat < 2 ^ v.ks → s.din.toNat < 2 ^ v.bs →
    ∃ t, runCommand (encode (.enc bs ks)) s = .next t ∧ t.cmd = encode (.enc bs ks) ∧
      t.status = { busy := false, done := true, err := 0#4 } ∧ t.phase = .idle ∧
      (∀ k, k < v.rc → t.rkAt k = keySchedule v s.key k) ∧ (∀ k, v.rc ≤ k → t.rkAt k = s.rkAt k) ∧
      t.dout = encrypt v (keySchedule v s.key) s.din ∧ t.dout.toNat < 2 ^ v.bs ∧ t.rkout = s.rkout ∧
      t.key = s.key ∧ t.din = s.din ∧ t.gct = s.gct ∧ t.host = s.host

/-- R163, and R44 of `DOUT`: `DEC` from command issue to command end. -/
def Obligations.DecDecryptsTheBlock : Prop :=
  ∀ (bs ks : BitVec 8) (v : Variant) (s : State), s.status.busy = false → lookupVariant bs ks = some v →
    s.key.toNat < 2 ^ v.ks → s.din.toNat < 2 ^ v.bs →
    ∃ t, runCommand (encode (.dec bs ks)) s = .next t ∧ t.cmd = encode (.dec bs ks) ∧
      t.status = { busy := false, done := true, err := 0#4 } ∧ t.phase = .idle ∧
      (∀ k, k < v.rc → t.rkAt k = keySchedule v s.key k) ∧ (∀ k, v.rc ≤ k → t.rkAt k = s.rkAt k) ∧
      t.dout = decrypt v (keySchedule v s.key) s.din ∧ t.dout.toNat < 2 ^ v.bs ∧ t.rkout = s.rkout ∧
      t.key = s.key ∧ t.din = s.din ∧ t.gct = s.gct ∧ t.host = s.host

/-- R193, R201, and R44 of `RKOUT`: `ATK` from command issue to command end, whatever the ciphertext in `GCT`. -/
def Obligations.AtkRunsTheSession : Prop :=
  ∀ (bs ks : BitVec 8) (v : Variant) (s : State), s.status.busy = false → lookupVariant bs ks = some v →
    s.key.toNat < 2 ^ v.ks → s.din.toNat < 2 ^ v.bs → s.gct.toNat < 2 ^ v.bs →
    ∃ t, runCommand (encode (.atk bs ks)) s = .next t ∧ t.cmd = encode (.atk bs ks) ∧
      t.status = { busy := false, done := true, err := 0#4 } ∧ t.phase = .idle ∧
      (∀ k, k < v.rc → t.rkAt k = keySchedule v s.key k) ∧ (∀ k, v.rc ≤ k → t.rkAt k = s.rkAt k) ∧
      t.rkout = attackSession v s.din s.gct s.key ∧ t.rkout.toNat < 2 ^ v.ws ∧ t.dout = s.dout ∧
      t.key = s.key ∧ t.din = s.din ∧ t.gct = s.gct ∧ t.host = s.host

/-- R225 (e ≠ 0), R255, R256: a command that fails leaves everything but `CMD` and `STATUS` as it was, with the code of the first
failing check in the order IllegalCommand, UnsupportedParameters, InvalidArgument. -/
def Obligations.FailedCommandChangesOnlyCmdAndStatus : Prop :=
  ∀ (w : Word) (s : State), s.status.busy = false → s.phase = .idle →
    (decode w = none →
      runCommand w s = .next { s with cmd := w, status := { busy := false, done := true, err := 3#4 } }) ∧
    (∀ i, decode w = some i →
      (lookupVariant i.bs i.ks = none →
        runCommand w s = .next { s with cmd := w, status := { busy := false, done := true, err := 2#4 } }) ∧
      (∀ v, lookupVariant i.bs i.ks = some v → operandsFit i v s = false →
        runCommand w s = .next { s with cmd := w, status := { busy := false, done := true, err := 1#4 } }))

/-- R223, R291: a command that passes CHECK is busy for exactly the stated number of micro-steps, which depends on the command
alone; one that fails CHECK, or a word that spells none, ends in one. -/
def Obligations.MicroStepCounts : Prop :=
  (∀ (i : Instr) (v : Variant) (s : State), s.phase = .check → lookupVariant i.bs i.ks = some v →
    operandsFit i v s = true →
    (∀ m, m < microSteps v i → ∃ t, execSteps i m s = .next t ∧ t.phase ≠ .idle ∧ t.status = s.status) ∧
    ∃ t, execSteps i (microSteps v i) s = .next t ∧ t.phase = .idle ∧
      t.status = { busy := false, done := true, err := 0#4 }) ∧
  (∀ (i : Instr) (s : State), s.phase = .check →
    lookupVariant i.bs i.ks = none ∨ (∃ v, lookupVariant i.bs i.ks = some v ∧ operandsFit i v s = false) →
    ∃ t, execSteps i 1 s = .next t ∧ t.phase = .idle ∧ t.status.done = true ∧ t.status.err ≠ 0#4) ∧
  (∀ s : State, s.status.busy = true → s.phase = .check → decode s.cmd = none →
    ∃ t, engineTurn s = .next t ∧ t.phase = .idle ∧ t.status.done = true ∧ t.status.err ≠ 0#4) ∧
  (∀ bs ks : BitVec 8,
    microSteps .v32 (.kexp bs ks) = 33 ∧ microSteps .v48 (.kexp bs ks) = 37 ∧ microSteps .v64 (.kexp bs ks) = 45 ∧
    microSteps .v32 (.enc bs ks) = 65 ∧ microSteps .v48 (.enc bs ks) = 73 ∧ microSteps .v64 (.enc bs ks) = 89 ∧
    microSteps .v32 (.dec bs ks) = 65 ∧ microSteps .v48 (.dec bs ks) = 73 ∧ microSteps .v64 (.dec bs ks) = 89 ∧
    microSteps .v32 (.atk bs ks) = 363 ∧ microSteps .v48 (.atk bs ks) = 555 ∧ microSteps .v64 (.atk bs ks) = 1035)

/-- R224: every word the host may issue leads, within 1035 micro-steps, to an idle engine with `DONE` set. -/
def Obligations.EveryCommandEnds : Prop :=
  ∀ (w : Word) (s : State), s.status.busy = false →
    ∃ t, runCommand w s = .next t ∧ t.status.busy = false ∧ t.status.done = true ∧ t.phase = .idle ∧ t.cmd = w

/-- R225: the big step `Run(s, w)` is what the machine's own steps do after command issue when the host has no further turn. -/
def Obligations.RunCommandIsTheMachinesOwnRun : Prop :=
  ∀ (w : Word) (s : State), s.host.script = [] →
    Sys2Proof.core.run Config.maxMicroSteps (issue w s) = runCommand w s

/-- R71 (c), R210, R225: host reads, host writes and polls, however interleaved with the engine's micro-steps, leave the engine
where the same number of its own turns alone would bring it, from any point of a command (or of a word that spells none) up to and
including the micro-step that ends it. `n` is any number of turns before each of which the engine alone would still be busy. That
busy writes to any number and of any value are dropped is log entry 8; how a `WAIT` polls is log entry 6. -/
def Obligations.InterleavingDoesNotMatter : Prop :=
  ∀ (s u : State) (n : Nat), s.status.done = false →
    (∀ x ∈ s.host.script, x ≠ .reset ∧ ∀ k, x = .read k → (Reg.ofNumber k).isSome = true) →
    (∀ m, m < n → ∃ x, engineTurns (engineTurnsAmong m s.host.script) s = .next x ∧ x.status.busy = true) →
    engineTurns (engineTurnsAmong n s.host.script) s = .next u →
    ∃ t, Sys2Proof.core.run n s = .next t ∧ SameEngine t u

/-- R44 with no proviso, for a machine whose commands so far were no wider than the variant `v`: it holds at reset, and every step
taken while the command in `CMD`, if any, is no wider keeps it; in particular for the variant of the running command. -/
def Obligations.EveryStepStaysWithinTheWidestCommand : Prop :=
  ∀ v : Variant, WithinWidths v State.reset ∧
    ∀ s t : State, Coherent s → WithinWidths v s →
      (∀ i w, decode s.cmd = some i → lookupVariant i.bs i.ks = some w → w.ws ≤ v.ws) →
      step s = .next t → WithinWidths v t
end

