-- ==== Sys2Proof/Laws/Bits.lean ====
section
/-! SUPPORT. The parameters as numerals, and the bit-level lemmas of the word operations. -/

namespace Sys2Proof.Machine

@[simp] theorem ws_v32 : Variant.v32.ws = 16 := rfl
@[simp] theorem ws_v48 : Variant.v48.ws = 24 := rfl
@[simp] theorem ws_v64 : Variant.v64.ws = 32 := rfl
@[simp] theorem rc_v32 : Variant.v32.rc = 32 := rfl
@[simp] theorem rc_v48 : Variant.v48.rc = 36 := rfl
@[simp] theorem rc_v64 : Variant.v64.rc = 44 := rfl
@[simp] theorem lw_v32 : Variant.v32.lw = 5 := rfl
@[simp] theorem lw_v48 : Variant.v48.lw = 5 := rfl
@[simp] theorem lw_v64 : Variant.v64.lw = 6 := rfl
@[simp] theorem ntrials_v32 : Variant.v32.ntrials = 10 := rfl
@[simp] theorem ntrials_v48 : Variant.v48.ntrials = 14 := rfl
@[simp] theorem ntrials_v64 : Variant.v64.ntrials = 22 := rfl

theorem ws_le (v : Variant) : v.ws ≤ 32 := by cases v <;> decide

theorem ws_ge (v : Variant) : 16 ≤ v.ws := by cases v <;> decide

theorem bs_eq (v : Variant) : v.bs = 2 * v.ws := by cases v <;> rfl

theorem ks_eq (v : Variant) : v.ks = 4 * v.ws := by cases v <;> rfl

theorem rc_le (v : Variant) : v.rc ≤ Config.rkDepth := by cases v <;> decide

theorem rc_ge (v : Variant) : 32 ≤ v.rc := by cases v <;> decide

/-- `rc_le` with the depth as a numeral, for `omega`. -/
theorem rc_le_44 (v : Variant) : v.rc ≤ 44 := rc_le v

theorem ntrials_le (v : Variant) : v.ntrials ≤ 22 := by cases v <;> decide

/-- Both key bits of a trial of a session lie in the word (R187). -/
theorem ntrials_add_five_lt (v : Variant) {j : Nat} (h : j < v.ntrials) : j + 5 < v.ws := by
  cases v <;> simp at * <;> omega

theorem getLsbD_mask (v : Variant) (i : Nat) : v.mask.getLsbD i = decide (i < v.ws) := by
  have h := ws_le v
  simp only [Variant.mask, BitVec.getLsbD_ofNat, Nat.testBit_two_pow_sub_one]
  by_cases hi : i < v.ws <;> simp [hi]
  omega

@[simp] theorem getLsbD_trunc (v : Variant) (x : Word) (i : Nat) :
    (trunc v x).getLsbD i = (x.getLsbD i && decide (i < v.ws)) := by
  simp [trunc, getLsbD_mask]

theorem getLsbD_setBit (w : Word) (k : Nat) (b : Bool) (i : Nat) :
    (setBit w k b).getLsbD i = if i = k ∧ i < 32 then b else w.getLsbD i := by
  unfold setBit
  by_cases hk : i = k
  · subst hk
    by_cases hi : i < 32
    · cases b <;> simp [hi]
    · have : w.getLsbD i = false := BitVec.getLsbD_of_ge _ _ (by omega)
      cases b <;> simp [hi, this]
  · have hk' : ¬ k = i := fun h => hk h.symm
    cases b <;> simp [hk, hk', BitVec.getLsbD_twoPow]
    intro h
    exact BitVec.lt_of_getLsbD h

/-- A word is below `2^n` exactly when no bit from `n` up is set. -/
theorem toNat_lt_two_pow_iff {w : Nat} (x : BitVec w) (n : Nat) :
    x.toNat < 2 ^ n ↔ ∀ i, n ≤ i → x.getLsbD i = false := by
  constructor
  · intro h i hi
    rw [← BitVec.testBit_toNat]
    exact Nat.testBit_lt_two_pow (lt_of_lt_of_le h (Nat.pow_le_pow_right (by decide) hi))
  · intro h
    apply Nat.lt_pow_two_of_testBit
    intro i hi
    rw [BitVec.testBit_toNat]
    exact h i hi

theorem bitIndex_lt (v : Variant) (k : Int) : bitIndex v k < v.ws := by
  have := ws_ge v
  unfold bitIndex
  have h1 := Int.emod_lt_of_pos k (show (0 : Int) < (v.ws : Int) by omega)
  have h2 := Int.emod_nonneg k (show (v.ws : Int) ≠ 0 by omega)
  omega

/-- Below the word size the index is the number itself. -/
theorem bitIndex_of_lt (v : Variant) {k : Nat} (h : k < v.ws) : bitIndex v (k : Int) = k := by
  unfold bitIndex
  rw [Int.emod_eq_of_lt] <;> omega

/-! ### The width of a word -/

/-- `x < 2^ws` exactly when no bit from `ws` up is set. -/
theorem lt_ws_iff (v : Variant) (x : Word) : x.toNat < 2 ^ v.ws ↔ ∀ i, v.ws ≤ i → x.getLsbD i = false :=
  toNat_lt_two_pow_iff x v.ws

theorem trunc_lt (v : Variant) (x : Word) : (trunc v x).toNat < 2 ^ v.ws := by
  rw [lt_ws_iff]
  intro i hi
  simp
  omega

theorem xor_lt {v : Variant} {x y : Word} (hx : x.toNat < 2 ^ v.ws) (hy : y.toNat < 2 ^ v.ws) :
    (x ^^^ y).toNat < 2 ^ v.ws := by
  rw [lt_ws_iff] at *
  intro i hi
  simp [hx i hi, hy i hi]

/-! ### The bits of the halves and of a block -/

theorem getLsbD_upperHalf (v : Variant) (p : Block) (i : Nat) :
    (upperHalf v p).getLsbD i = (decide (i < 32) && p.getLsbD (v.ws + i)) := by
  simp [upperHalf]

theorem getLsbD_lowerHalf (v : Variant) (p : Block) (i : Nat) :
    (lowerHalf v p).getLsbD i = (p.getLsbD i && decide (i < v.ws)) := by
  have := ws_le v
  simp only [lowerHalf, getLsbD_trunc, BitVec.getLsbD_setWidth]
  by_cases hi : i < v.ws <;> simp [hi]
  omega

theorem getLsbD_join (v : Variant) (h : Halves) (hl : h.left.toNat < 2 ^ v.ws) (hr : h.right.toNat < 2 ^ v.ws) (i : Nat) :
    (join v h).getLsbD i = if i < v.ws then h.right.getLsbD i else h.left.getLsbD (i - v.ws) := by
  have := ws_le v
  rw [lt_ws_iff] at hr hl
  simp only [join, BitVec.getLsbD_or, BitVec.getLsbD_shiftLeft, BitVec.getLsbD_setWidth]
  by_cases hi : i < v.ws
  · simp [hi, show i < 64 by omega]
  · rw [hr i (by omega)]
    simp only [hi]
    by_cases h64 : i < 64
    · simp [h64, show i - v.ws < 64 by omega]
    · simp [h64, hl (i - v.ws) (by omega)]

end Sys2Proof.Machine
end

