-- ==== Sys2Proof/Laws/State.lean ====
section
/-! SUPPORT. What each named update of the state leaves in each field. -/

namespace Sys2Proof.Machine

@[simp] theorem issue_cmd (w : Word) (s : State) : (issue w s).cmd = w := rfl
@[simp] theorem issue_status (w : Word) (s : State) : (issue w s).status = Status.issued := rfl
@[simp] theorem issue_key (w : Word) (s : State) : (issue w s).key = s.key := rfl
@[simp] theorem issue_din (w : Word) (s : State) : (issue w s).din = s.din := rfl
@[simp] theorem issue_gct (w : Word) (s : State) : (issue w s).gct = s.gct := rfl
@[simp] theorem issue_dout (w : Word) (s : State) : (issue w s).dout = s.dout := rfl
@[simp] theorem issue_rkout (w : Word) (s : State) : (issue w s).rkout = s.rkout := rfl
@[simp] theorem issue_rk (w : Word) (s : State) : (issue w s).rk = s.rk := rfl
@[simp] theorem issue_phase (w : Word) (s : State) : (issue w s).phase = .check := rfl
@[simp] theorem issue_t (w : Word) (s : State) : (issue w s).t = s.t := rfl
@[simp] theorem issue_swin (w : Word) (s : State) : (issue w s).swin = s.swin := rfl
@[simp] theorem issue_l (w : Word) (s : State) : (issue w s).l = s.l := rfl
@[simp] theorem issue_r (w : Word) (s : State) : (issue w s).r = s.r := rfl
@[simp] theorem issue_i (w : Word) (s : State) : (issue w s).i = s.i := rfl
@[simp] theorem issue_j (w : Word) (s : State) : (issue w s).j = s.j := rfl
@[simp] theorem issue_acc (w : Word) (s : State) : (issue w s).acc = s.acc := rfl
@[simp] theorem issue_accv (w : Word) (s : State) : (issue w s).accv = s.accv := rfl
@[simp] theorem issue_cf (w : Word) (s : State) : (issue w s).cf = s.cf := rfl
@[simp] theorem issue_host (w : Word) (s : State) : (issue w s).host = s.host := rfl

@[simp] theorem finish_cmd (e : BitVec 4) (s : State) : (finish e s).cmd = s.cmd := rfl
@[simp] theorem finish_status (e : BitVec 4) (s : State) : (finish e s).status = Status.ended e := rfl
@[simp] theorem finish_key (e : BitVec 4) (s : State) : (finish e s).key = s.key := rfl
@[simp] theorem finish_din (e : BitVec 4) (s : State) : (finish e s).din = s.din := rfl
@[simp] theorem finish_gct (e : BitVec 4) (s : State) : (finish e s).gct = s.gct := rfl
@[simp] theorem finish_dout (e : BitVec 4) (s : State) : (finish e s).dout = s.dout := rfl
@[simp] theorem finish_rkout (e : BitVec 4) (s : State) : (finish e s).rkout = s.rkout := rfl
@[simp] theorem finish_rk (e : BitVec 4) (s : State) : (finish e s).rk = s.rk := rfl
@[simp] theorem finish_phase (e : BitVec 4) (s : State) : (finish e s).phase = .idle := rfl
@[simp] theorem finish_t (e : BitVec 4) (s : State) : (finish e s).t = s.t := rfl
@[simp] theorem finish_swin (e : BitVec 4) (s : State) : (finish e s).swin = s.swin := rfl
@[simp] theorem finish_l (e : BitVec 4) (s : State) : (finish e s).l = s.l := rfl
@[simp] theorem finish_r (e : BitVec 4) (s : State) : (finish e s).r = s.r := rfl
@[simp] theorem finish_i (e : BitVec 4) (s : State) : (finish e s).i = s.i := rfl
@[simp] theorem finish_j (e : BitVec 4) (s : State) : (finish e s).j = s.j := rfl
@[simp] theorem finish_acc (e : BitVec 4) (s : State) : (finish e s).acc = s.acc := rfl
@[simp] theorem finish_accv (e : BitVec 4) (s : State) : (finish e s).accv = s.accv := rfl
@[simp] theorem finish_cf (e : BitVec 4) (s : State) : (finish e s).cf = s.cf := rfl
@[simp] theorem finish_host (e : BitVec 4) (s : State) : (finish e s).host = s.host := rfl

@[simp] theorem storeRk_cmd (s : State) (k : Nat) (x : Word) : (s.storeRk k x).cmd = s.cmd := rfl
@[simp] theorem storeRk_status (s : State) (k : Nat) (x : Word) : (s.storeRk k x).status = s.status := rfl
@[simp] theorem storeRk_key (s : State) (k : Nat) (x : Word) : (s.storeRk k x).key = s.key := rfl
@[simp] theorem storeRk_din (s : State) (k : Nat) (x : Word) : (s.storeRk k x).din = s.din := rfl
@[simp] theorem storeRk_gct (s : State) (k : Nat) (x : Word) : (s.storeRk k x).gct = s.gct := rfl
@[simp] theorem storeRk_dout (s : State) (k : Nat) (x : Word) : (s.storeRk k x).dout = s.dout := rfl
@[simp] theorem storeRk_rkout (s : State) (k : Nat) (x : Word) : (s.storeRk k x).rkout = s.rkout := rfl
@[simp] theorem storeRk_rk (s : State) (k : Nat) (x : Word) : (s.storeRk k x).rk = s.rk.setIfInBounds k x := rfl
@[simp] theorem storeRk_phase (s : State) (k : Nat) (x : Word) : (s.storeRk k x).phase = s.phase := rfl
@[simp] theorem storeRk_t (s : State) (k : Nat) (x : Word) : (s.storeRk k x).t = s.t := rfl
@[simp] theorem storeRk_swin (s : State) (k : Nat) (x : Word) : (s.storeRk k x).swin = s.swin := rfl
@[simp] theorem storeRk_l (s : State) (k : Nat) (x : Word) : (s.storeRk k x).l = s.l := rfl
@[simp] theorem storeRk_r (s : State) (k : Nat) (x : Word) : (s.storeRk k x).r = s.r := rfl
@[simp] theorem storeRk_i (s : State) (k : Nat) (x : Word) : (s.storeRk k x).i = s.i := rfl
@[simp] theorem storeRk_j (s : State) (k : Nat) (x : Word) : (s.storeRk k x).j = s.j := rfl
@[simp] theorem storeRk_acc (s : State) (k : Nat) (x : Word) : (s.storeRk k x).acc = s.acc := rfl
@[simp] theorem storeRk_accv (s : State) (k : Nat) (x : Word) : (s.storeRk k x).accv = s.accv := rfl
@[simp] theorem storeRk_cf (s : State) (k : Nat) (x : Word) : (s.storeRk k x).cf = s.cf := rfl
@[simp] theorem storeRk_host (s : State) (k : Nat) (x : Word) : (s.storeRk k x).host = s.host := rfl

@[simp] theorem withHalves_cmd (s : State) (h : Halves) : (s.withHalves h).cmd = s.cmd := rfl
@[simp] theorem withHalves_status (s : State) (h : Halves) : (s.withHalves h).status = s.status := rfl
@[simp] theorem withHalves_key (s : State) (h : Halves) : (s.withHalves h).key = s.key := rfl
@[simp] theorem withHalves_din (s : State) (h : Halves) : (s.withHalves h).din = s.din := rfl
@[simp] theorem withHalves_gct (s : State) (h : Halves) : (s.withHalves h).gct = s.gct := rfl
@[simp] theorem withHalves_dout (s : State) (h : Halves) : (s.withHalves h).dout = s.dout := rfl
@[simp] theorem withHalves_rkout (s : State) (h : Halves) : (s.withHalves h).rkout = s.rkout := rfl
@[simp] theorem withHalves_rk (s : State) (h : Halves) : (s.withHalves h).rk = s.rk := rfl
@[simp] theorem withHalves_phase (s : State) (h : Halves) : (s.withHalves h).phase = s.phase := rfl
@[simp] theorem withHalves_t (s : State) (h : Halves) : (s.withHalves h).t = s.t := rfl
@[simp] theorem withHalves_swin (s : State) (h : Halves) : (s.withHalves h).swin = s.swin := rfl
@[simp] theorem withHalves_l (s : State) (h : Halves) : (s.withHalves h).l = h.left := rfl
@[simp] theorem withHalves_r (s : State) (h : Halves) : (s.withHalves h).r = h.right := rfl
@[simp] theorem withHalves_i (s : State) (h : Halves) : (s.withHalves h).i = s.i := rfl
@[simp] theorem withHalves_j (s : State) (h : Halves) : (s.withHalves h).j = s.j := rfl
@[simp] theorem withHalves_acc (s : State) (h : Halves) : (s.withHalves h).acc = s.acc := rfl
@[simp] theorem withHalves_accv (s : State) (h : Halves) : (s.withHalves h).accv = s.accv := rfl
@[simp] theorem withHalves_cf (s : State) (h : Halves) : (s.withHalves h).cf = s.cf := rfl
@[simp] theorem withHalves_host (s : State) (h : Halves) : (s.withHalves h).host = s.host := rfl

@[simp] theorem withI_cmd (s : State) (k : Nat) : (s.withI k).cmd = s.cmd := rfl
@[simp] theorem withI_status (s : State) (k : Nat) : (s.withI k).status = s.status := rfl
@[simp] theorem withI_key (s : State) (k : Nat) : (s.withI k).key = s.key := rfl
@[simp] theorem withI_din (s : State) (k : Nat) : (s.withI k).din = s.din := rfl
@[simp] theorem withI_gct (s : State) (k : Nat) : (s.withI k).gct = s.gct := rfl
@[simp] theorem withI_dout (s : State) (k : Nat) : (s.withI k).dout = s.dout := rfl
@[simp] theorem withI_rkout (s : State) (k : Nat) : (s.withI k).rkout = s.rkout := rfl
@[simp] theorem withI_rk (s : State) (k : Nat) : (s.withI k).rk = s.rk := rfl
@[simp] theorem withI_phase (s : State) (k : Nat) : (s.withI k).phase = s.phase := rfl
@[simp] theorem withI_t (s : State) (k : Nat) : (s.withI k).t = s.t := rfl
@[simp] theorem withI_swin (s : State) (k : Nat) : (s.withI k).swin = s.swin := rfl
@[simp] theorem withI_l (s : State) (k : Nat) : (s.withI k).l = s.l := rfl
@[simp] theorem withI_r (s : State) (k : Nat) : (s.withI k).r = s.r := rfl
@[simp] theorem withI_i (s : State) (k : Nat) : (s.withI k).i = BitVec.ofNat 6 k := rfl
@[simp] theorem withI_j (s : State) (k : Nat) : (s.withI k).j = s.j := rfl
@[simp] theorem withI_acc (s : State) (k : Nat) : (s.withI k).acc = s.acc := rfl
@[simp] theorem withI_accv (s : State) (k : Nat) : (s.withI k).accv = s.accv := rfl
@[simp] theorem withI_cf (s : State) (k : Nat) : (s.withI k).cf = s.cf := rfl
@[simp] theorem withI_host (s : State) (k : Nat) : (s.withI k).host = s.host := rfl

@[simp] theorem withScript_cmd (s : State) (q : List HostTurn) : (s.withScript q).cmd = s.cmd := rfl
@[simp] theorem withScript_status (s : State) (q : List HostTurn) : (s.withScript q).status = s.status := rfl
@[simp] theorem withScript_key (s : State) (q : List HostTurn) : (s.withScript q).key = s.key := rfl
@[simp] theorem withScript_din (s : State) (q : List HostTurn) : (s.withScript q).din = s.din := rfl
@[simp] theorem withScript_gct (s : State) (q : List HostTurn) : (s.withScript q).gct = s.gct := rfl
@[simp] theorem withScript_dout (s : State) (q : List HostTurn) : (s.withScript q).dout = s.dout := rfl
@[simp] theorem withScript_rkout (s : State) (q : List HostTurn) : (s.withScript q).rkout = s.rkout := rfl
@[simp] theorem withScript_rk (s : State) (q : List HostTurn) : (s.withScript q).rk = s.rk := rfl
@[simp] theorem withScript_phase (s : State) (q : List HostTurn) : (s.withScript q).phase = s.phase := rfl
@[simp] theorem withScript_t (s : State) (q : List HostTurn) : (s.withScript q).t = s.t := rfl
@[simp] theorem withScript_swin (s : State) (q : List HostTurn) : (s.withScript q).swin = s.swin := rfl
@[simp] theorem withScript_l (s : State) (q : List HostTurn) : (s.withScript q).l = s.l := rfl
@[simp] theorem withScript_r (s : State) (q : List HostTurn) : (s.withScript q).r = s.r := rfl
@[simp] theorem withScript_i (s : State) (q : List HostTurn) : (s.withScript q).i = s.i := rfl
@[simp] theorem withScript_j (s : State) (q : List HostTurn) : (s.withScript q).j = s.j := rfl
@[simp] theorem withScript_acc (s : State) (q : List HostTurn) : (s.withScript q).acc = s.acc := rfl
@[simp] theorem withScript_accv (s : State) (q : List HostTurn) : (s.withScript q).accv = s.accv := rfl
@[simp] theorem withScript_cf (s : State) (q : List HostTurn) : (s.withScript q).cf = s.cf := rfl
@[simp] theorem withScript_host (s : State) (q : List HostTurn) : (s.withScript q).host = { s.host with script := q } := rfl

@[simp] theorem sawRead_cmd (s : State) (n x : Nat) : (s.sawRead n x).cmd = s.cmd := rfl
@[simp] theorem sawRead_status (s : State) (n x : Nat) : (s.sawRead n x).status = s.status := rfl
@[simp] theorem sawRead_key (s : State) (n x : Nat) : (s.sawRead n x).key = s.key := rfl
@[simp] theorem sawRead_din (s : State) (n x : Nat) : (s.sawRead n x).din = s.din := rfl
@[simp] theorem sawRead_gct (s : State) (n x : Nat) : (s.sawRead n x).gct = s.gct := rfl
@[simp] theorem sawRead_dout (s : State) (n x : Nat) : (s.sawRead n x).dout = s.dout := rfl
@[simp] theorem sawRead_rkout (s : State) (n x : Nat) : (s.sawRead n x).rkout = s.rkout := rfl
@[simp] theorem sawRead_rk (s : State) (n x : Nat) : (s.sawRead n x).rk = s.rk := rfl
@[simp] theorem sawRead_phase (s : State) (n x : Nat) : (s.sawRead n x).phase = s.phase := rfl
@[simp] theorem sawRead_t (s : State) (n x : Nat) : (s.sawRead n x).t = s.t := rfl
@[simp] theorem sawRead_swin (s : State) (n x : Nat) : (s.sawRead n x).swin = s.swin := rfl
@[simp] theorem sawRead_l (s : State) (n x : Nat) : (s.sawRead n x).l = s.l := rfl
@[simp] theorem sawRead_r (s : State) (n x : Nat) : (s.sawRead n x).r = s.r := rfl
@[simp] theorem sawRead_i (s : State) (n x : Nat) : (s.sawRead n x).i = s.i := rfl
@[simp] theorem sawRead_j (s : State) (n x : Nat) : (s.sawRead n x).j = s.j := rfl
@[simp] theorem sawRead_acc (s : State) (n x : Nat) : (s.sawRead n x).acc = s.acc := rfl
@[simp] theorem sawRead_accv (s : State) (n x : Nat) : (s.sawRead n x).accv = s.accv := rfl
@[simp] theorem sawRead_cf (s : State) (n x : Nat) : (s.sawRead n x).cf = s.cf := rfl
@[simp] theorem sawRead_host (s : State) (n x : Nat) : (s.sawRead n x).host = { s.host with seen := s.host.seen ++ [(n, x)] } := rfl

@[simp] theorem resetEngine_cmd (s : State) : (resetEngine s).cmd = State.reset.cmd := rfl
@[simp] theorem resetEngine_status (s : State) : (resetEngine s).status = State.reset.status := rfl
@[simp] theorem resetEngine_key (s : State) : (resetEngine s).key = State.reset.key := rfl
@[simp] theorem resetEngine_din (s : State) : (resetEngine s).din = State.reset.din := rfl
@[simp] theorem resetEngine_gct (s : State) : (resetEngine s).gct = State.reset.gct := rfl
@[simp] theorem resetEngine_dout (s : State) : (resetEngine s).dout = State.reset.dout := rfl
@[simp] theorem resetEngine_rkout (s : State) : (resetEngine s).rkout = State.reset.rkout := rfl
@[simp] theorem resetEngine_rk (s : State) : (resetEngine s).rk = State.reset.rk := rfl
@[simp] theorem resetEngine_phase (s : State) : (resetEngine s).phase = State.reset.phase := rfl
@[simp] theorem resetEngine_t (s : State) : (resetEngine s).t = State.reset.t := rfl
@[simp] theorem resetEngine_swin (s : State) : (resetEngine s).swin = State.reset.swin := rfl
@[simp] theorem resetEngine_l (s : State) : (resetEngine s).l = State.reset.l := rfl
@[simp] theorem resetEngine_r (s : State) : (resetEngine s).r = State.reset.r := rfl
@[simp] theorem resetEngine_i (s : State) : (resetEngine s).i = State.reset.i := rfl
@[simp] theorem resetEngine_j (s : State) : (resetEngine s).j = State.reset.j := rfl
@[simp] theorem resetEngine_acc (s : State) : (resetEngine s).acc = State.reset.acc := rfl
@[simp] theorem resetEngine_accv (s : State) : (resetEngine s).accv = State.reset.accv := rfl
@[simp] theorem resetEngine_cf (s : State) : (resetEngine s).cf = State.reset.cf := rfl
@[simp] theorem resetEngine_host (s : State) : (resetEngine s).host = s.host := rfl

@[simp] theorem withKeyBitMap_cmd (s : State) (m : KeyBitMap) : (s.withKeyBitMap m).cmd = s.cmd := rfl
@[simp] theorem withKeyBitMap_status (s : State) (m : KeyBitMap) : (s.withKeyBitMap m).status = s.status := rfl
@[simp] theorem withKeyBitMap_key (s : State) (m : KeyBitMap) : (s.withKeyBitMap m).key = s.key := rfl
@[simp] theorem withKeyBitMap_din (s : State) (m : KeyBitMap) : (s.withKeyBitMap m).din = s.din := rfl
@[simp] theorem withKeyBitMap_gct (s : State) (m : KeyBitMap) : (s.withKeyBitMap m).gct = s.gct := rfl
@[simp] theorem withKeyBitMap_dout (s : State) (m : KeyBitMap) : (s.withKeyBitMap m).dout = s.dout := rfl
@[simp] theorem withKeyBitMap_rkout (s : State) (m : KeyBitMap) : (s.withKeyBitMap m).rkout = s.rkout := rfl
@[simp] theorem withKeyBitMap_rk (s : State) (m : KeyBitMap) : (s.withKeyBitMap m).rk = s.rk := rfl
@[simp] theorem withKeyBitMap_phase (s : State) (m : KeyBitMap) : (s.withKeyBitMap m).phase = s.phase := rfl
@[simp] theorem withKeyBitMap_t (s : State) (m : KeyBitMap) : (s.withKeyBitMap m).t = s.t := rfl
@[simp] theorem withKeyBitMap_swin (s : State) (m : KeyBitMap) : (s.withKeyBitMap m).swin = s.swin := rfl
@[simp] theorem withKeyBitMap_l (s : State) (m : KeyBitMap) : (s.withKeyBitMap m).l = s.l := rfl
@[simp] theorem withKeyBitMap_r (s : State) (m : KeyBitMap) : (s.withKeyBitMap m).r = s.r := rfl
@[simp] theorem withKeyBitMap_i (s : State) (m : KeyBitMap) : (s.withKeyBitMap m).i = s.i := rfl
@[simp] theorem withKeyBitMap_j (s : State) (m : KeyBitMap) : (s.withKeyBitMap m).j = s.j := rfl
@[simp] theorem withKeyBitMap_acc (s : State) (m : KeyBitMap) : (s.withKeyBitMap m).acc = m.acc := rfl
@[simp] theorem withKeyBitMap_accv (s : State) (m : KeyBitMap) : (s.withKeyBitMap m).accv = m.accv := rfl
@[simp] theorem withKeyBitMap_cf (s : State) (m : KeyBitMap) : (s.withKeyBitMap m).cf = s.cf := rfl
@[simp] theorem withKeyBitMap_host (s : State) (m : KeyBitMap) : (s.withKeyBitMap m).host = s.host := rfl

@[simp] theorem loadHalves_eq (v : Variant) (s : State) : loadHalves v s = s.withHalves (split v s.din) := rfl

@[simp] theorem raise_eq (e : CommandError) (s : State) : raise e s = finish e.code s := rfl

@[simp] theorem halves_withHalves (s : State) (h : Halves) : (s.withHalves h).halves = h := rfl

@[simp] theorem keyBitMap_withKeyBitMap (s : State) (m : KeyBitMap) : (s.withKeyBitMap m).keyBitMap = m := rfl

end Sys2Proof.Machine
end

