-- ==== Sys2Proof/Laws/Ops.lean ====
section
/-! SUPPORT. Once for each shared operation, everything it can do: the micro-steps, the host events and the turn. -/

namespace Sys2Proof.Machine

/-! ### The round-key store -/

theorem rkAt_storeRk (s : State) (k n : Nat) (x : Word) :
    (s.storeRk k x).rkAt n = if k = n ∧ n < Config.rkDepth then x else s.rkAt n := by
  unfold State.rkAt State.storeRk
  simp only [Vector.getElem?_setIfInBounds]
  by_cases hk : k = n
  · subst hk
    by_cases h : k < Config.rkDepth
    · simp [h]
    · simp [h]
  · simp [hk]

@[simp] theorem rkAt_withHalves (s : State) (h : Halves) (n : Nat) : (s.withHalves h).rkAt n = s.rkAt n := rfl

@[simp] theorem rkAt_withI (s : State) (k n : Nat) : (s.withI k).rkAt n = s.rkAt n := rfl

@[simp] theorem rkAt_finish (e : BitVec 4) (s : State) (n : Nat) : (finish e s).rkAt n = s.rkAt n := rfl

@[simp] theorem rkAt_issue (w : Word) (s : State) (n : Nat) : (issue w s).rkAt n = s.rkAt n := rfl

@[simp] theorem rkAt_withScript (s : State) (q : List HostTurn) (n : Nat) : (s.withScript q).rkAt n = s.rkAt n := rfl

@[simp] theorem rkAt_withKeyBitMap (s : State) (m : KeyBitMap) (n : Nat) : (s.withKeyBitMap m).rkAt n = s.rkAt n := rfl

/-! ### The micro-steps -/

theorem ksStep_next_iff (d : Variant → State → State) (v : Variant) (s t : State) :
    ksStep d v s = .next t ↔ s.i.toNat < Config.rkDepth ∧
      t = if s.i.toNat + 1 < v.rc then (ksRoundWrites v s).withI (s.i.toNat + 1) else d v (ksRoundWrites v s) := by
  unfold ksStep
  by_cases h : s.i.toNat < Config.rkDepth <;> simp [h, eq_comm]

theorem encStep_next_iff (v : Variant) (s t : State) :
    encStep v s = .next t ↔ s.i.toNat < Config.rkDepth ∧
      t = if s.i.toNat + 1 < v.rc then (s.withHalves (fwd v s.halves (s.rkAt s.i.toNat))).withI (s.i.toNat + 1)
        else finish 0#4 { s.withHalves (fwd v s.halves (s.rkAt s.i.toNat)) with
          dout := join v (fwd v s.halves (s.rkAt s.i.toNat)) } := by
  unfold encStep
  by_cases h : s.i.toNat < Config.rkDepth <;> simp [h, eq_comm]

theorem decStep_next_iff (v : Variant) (s t : State) :
    decStep v s = .next t ↔ s.i.toNat < Config.rkDepth ∧
      t = if 0 < s.i.toNat then (s.withHalves (inv v s.halves (s.rkAt s.i.toNat))).withI (s.i.toNat - 1)
        else finish 0#4 { s.withHalves (inv v s.halves (s.rkAt s.i.toNat)) with
          dout := join v (inv v s.halves (s.rkAt s.i.toNat)) } := by
  unfold decStep
  by_cases h : s.i.toNat < Config.rkDepth <;> simp [h, eq_comm]

theorem aencStep_next_iff (v : Variant) (s t : State) :
    aencStep v s = .next t ↔ s.i.toNat < Config.rkDepth ∧
      t = if s.i.toNat + 1 < v.rc then
          (s.withHalves (fwd v (faultHook v s.i.toNat s.j.toNat s.halves) (s.rkAt s.i.toNat))).withI (s.i.toNat + 1)
        else { s.withHalves (fwd v (faultHook v s.i.toNat s.j.toNat s.halves) (s.rkAt s.i.toNat)) with
          cf := join v (fwd v (faultHook v s.i.toNat s.j.toNat s.halves) (s.rkAt s.i.toNat)), phase := .arec } := by
  unfold aencStep
  by_cases h : s.i.toNat < Config.rkDepth <;> simp [h, eq_comm]

theorem arecStep_next_iff (v : Variant) (s t : State) :
    arecStep v s = .next t ↔ targetB s.j.toNat < v.ws ∧
      t = if s.j.toNat + 1 < v.ntrials then
          { startTrial v (s.withKeyBitMap (recordTrial v s.j.toNat s.gct s.cf s.keyBitMap)) with
            j := BitVec.ofNat 5 (s.j.toNat + 1) }
        else finish 0#4 { s.withKeyBitMap (recordTrial v s.j.toNat s.gct s.cf s.keyBitMap) with
          rkout := (recordTrial v s.j.toNat s.gct s.cf s.keyBitMap).acc } := by
  unfold arecStep
  by_cases h : targetB s.j.toNat < v.ws <;> simp [h, eq_comm]

theorem checkStep_supported (fit : Variant → State → Bool) {bs ks : BitVec 8} {v : Variant}
    (h : lookupVariant bs ks = some v) (s : State) :
    checkStep fit bs ks s = if fit v s then checkLoads v s else finish 1#4 s := by
  simp [checkStep, h, CommandError.code]

theorem checkStep_unsupported (fit : Variant → State → Bool) {bs ks : BitVec 8}
    (h : lookupVariant bs ks = none) (s : State) : checkStep fit bs ks s = finish 2#4 s := by
  simp [checkStep, h, CommandError.code]

/-- The dispatch of each command at the end of KS. -/
def dispatchOf : Instr → Variant → State → State
  | .enc _ _ => dispatchEnc
  | .dec _ _ => dispatchDec
  | .atk _ _ => dispatchAtk
  | .kexp _ _ => dispatchKexp

/-- Every meaning is the shared micro-step with the command's own checks and dispatch. -/
theorem exec_eq_microStep (i : Instr) (s : State) :
    exec i s = microStep (operandsFit i) (dispatchOf i) i.bs i.ks s := by
  cases i <;> rfl

theorem exec_check (i : Instr) (s : State) (h : s.phase = .check) :
    exec i s = .next (checkStep (operandsFit i) i.bs i.ks s) := by
  simp [exec_eq_microStep, microStep, h]

theorem exec_ks (i : Instr) (v : Variant) (s : State) (hv : lookupVariant i.bs i.ks = some v) (h : s.phase = .ks) :
    exec i s = ksStep (dispatchOf i) v s := by
  simp [exec_eq_microStep, microStep, withVariant, h, hv]

theorem exec_enc (i : Instr) (v : Variant) (s : State) (hv : lookupVariant i.bs i.ks = some v) (h : s.phase = .enc) :
    exec i s = encStep v s := by
  simp [exec_eq_microStep, microStep, withVariant, h, hv]

theorem exec_dec (i : Instr) (v : Variant) (s : State) (hv : lookupVariant i.bs i.ks = some v) (h : s.phase = .dec) :
    exec i s = decStep v s := by
  simp [exec_eq_microStep, microStep, withVariant, h, hv]

theorem exec_aenc (i : Instr) (v : Variant) (s : State) (hv : lookupVariant i.bs i.ks = some v) (h : s.phase = .aenc) :
    exec i s = aencStep v s := by
  simp [exec_eq_microStep, microStep, withVariant, h, hv]

theorem exec_arec (i : Instr) (v : Variant) (s : State) (hv : lookupVariant i.bs i.ks = some v) (h : s.phase = .arec) :
    exec i s = arecStep v s := by
  simp [exec_eq_microStep, microStep, withVariant, h, hv]

/-- Everything a micro-step can do: which phase it was taken in, and by which rule. -/
theorem exec_next_cases {i : Instr} {s t : State} (h : exec i s = .next t) :
    (s.phase = .check ∧ t = checkStep (operandsFit i) i.bs i.ks s) ∨
    ∃ v, lookupVariant i.bs i.ks = some v ∧
      ((s.phase = .ks ∧ ksStep (dispatchOf i) v s = .next t) ∨ (s.phase = .enc ∧ encStep v s = .next t) ∨
       (s.phase = .dec ∧ decStep v s = .next t) ∨ (s.phase = .aenc ∧ aencStep v s = .next t) ∨
       (s.phase = .arec ∧ arecStep v s = .next t)) := by
  cases hp : s.phase with
  | check =>
    rw [exec_check i s hp] at h
    cases h
    exact .inl ⟨rfl, rfl⟩
  | idle => simp [exec_eq_microStep, microStep, hp] at h
  | ks | enc | dec | aenc | arec =>
    all_goals
      right
      cases hv : lookupVariant i.bs i.ks with
      | none => simp [exec_eq_microStep, microStep, withVariant, hp, hv] at h
      | some v =>
        simp [exec_eq_microStep, microStep, withVariant, hp, hv] at h
        exact ⟨v, rfl, by simp [h]⟩

/-! ### The host events and the turn -/

theorem hostRead_mapped {n : Nat} {g : Reg} (h : Reg.ofNumber n = some g) (s : State) :
    hostRead n s = .next (s.sawRead n (readReg s g)) := by
  simp [hostRead, h]

theorem hostWrite_busy (n x : Nat) {s : State} (h : s.status.busy = true) : hostWrite n x s = .next s := by
  simp [hostWrite, h]

theorem hostWrite_accepted {n x : Nat} {g : Reg} {s : State} (h : s.status.busy = false)
    (hn : Reg.ofNumber n = some g) (hx : x < 2 ^ g.width) : hostWrite n x s = .next (writeReg s x g) := by
  simp [hostWrite, h, hn, hx]

/-- Everything a host write can do when the machine goes on. -/
theorem hostWrite_next {n x : Nat} {s t : State} (h : hostWrite n x s = .next t) :
    (s.status.busy = true ∧ t = s) ∨
    (s.status.busy = false ∧ ∃ g, Reg.ofNumber n = some g ∧ x < 2 ^ g.width ∧ t = writeReg s x g) := by
  unfold hostWrite at h
  cases hb : s.status.busy with
  | true => simp [hb] at h; exact .inl ⟨rfl, h.symm⟩
  | false =>
    simp only [hb, Bool.false_eq_true, if_false] at h
    cases hn : Reg.ofNumber n with
    | none => simp [hn] at h
    | some g =>
      simp only [hn] at h
      by_cases hx : x < 2 ^ g.width
      · simp [hx] at h; exact .inr ⟨rfl, g, rfl, hx, h.symm⟩
      · simp [hx] at h

theorem engineTurn_idle {s : State} (h : s.status.busy = false) : engineTurn s = .next s := by
  simp [engineTurn, h]

theorem engineTurn_command {s : State} {i : Instr} (h : s.status.busy = true) (hd : decode s.cmd = some i) :
    engineTurn s = exec i s := by
  simp [engineTurn, h, hd]

/-- Everything an engine turn can do when the machine goes on. -/
theorem engineTurn_next {s t : State} (h : engineTurn s = .next t) :
    (s.status.busy = false ∧ t = s) ∨
    (s.status.busy = true ∧ ∃ i, decode s.cmd = some i ∧ exec i s = .next t) ∨
    (s.status.busy = true ∧ decode s.cmd = none ∧ s.phase = .check ∧ t = finish 3#4 s) := by
  unfold engineTurn at h
  cases hb : s.status.busy with
  | false => simp [hb] at h; exact .inl ⟨rfl, h.symm⟩
  | true =>
    simp only [hb, if_true] at h
    cases hd : decode s.cmd with
    | some i => simp only [hd] at h; exact .inr (.inl ⟨rfl, i, rfl, h⟩)
    | none =>
      simp only [hd, illegalWordStep] at h
      by_cases hp : s.phase = .check
      · simp [hp, CommandError.code] at h; exact .inr (.inr ⟨rfl, rfl, hp, h.symm⟩)
      · simp [hp] at h

/-! ### Operand checks -/

/-- What R213 checks of each command, spelled out. -/
theorem operandsFit_iff (i : Instr) (v : Variant) (s : State) :
    operandsFit i v s = true ↔ s.key.toNat < 2 ^ v.ks ∧ (i.op ≠ 4#8 → s.din.toNat < 2 ^ v.bs) ∧
      (i.op = 3#8 → s.gct.toNat < 2 ^ v.bs) := by
  cases i <;> simp [operandsFit, cipherOperandsFit, keyOperandFits, attackOperandsFit, keyFits, dinFits, gctFits, Instr.op,
    and_assoc]

/-- The operand checks read nothing but the operand registers. -/
theorem operandsFit_congr (i : Instr) (v : Variant) {s t : State} (hk : t.key = s.key) (hd : t.din = s.din)
    (hg : t.gct = s.gct) : operandsFit i v t = operandsFit i v s := by
  cases i <;> simp [operandsFit, cipherOperandsFit, keyOperandFits, attackOperandsFit, keyFits, dinFits, gctFits, hk, hd, hg]

/-- Everything a CHECK micro-step of a command can do. -/
theorem checkStep_cases (i : Instr) (s : State) :
    checkStep (operandsFit i) i.bs i.ks s = finish 2#4 s ∨ checkStep (operandsFit i) i.bs i.ks s = finish 1#4 s ∨
      ∃ v, lookupVariant i.bs i.ks = some v ∧ operandsFit i v s = true ∧
        checkStep (operandsFit i) i.bs i.ks s = checkLoads v s := by
  cases h : lookupVariant i.bs i.ks with
  | none => exact .inl (checkStep_unsupported _ h s)
  | some v =>
    rw [checkStep_supported _ h]
    cases hf : operandsFit i v s
    · exact .inr (.inl rfl)
    · exact .inr (.inr ⟨v, rfl, by simp [hf], by simp⟩)

/-! ### Runs -/

theorem core_run_of_next {n : Nat} {s t : State} (h : step s = .next t) :
    Sys2Proof.core.run (n + 1) s = Sys2Proof.core.run n t := by
  have key : ∀ (M : Host.Core) (s t : M.State), M.step s = .next t → M.run (n + 1) s = M.run n t := by
    intro M s t h
    simp [Host.Core.run, h]
  exact key Sys2Proof.core s t h

theorem core_run_of_fault {n : Nat} {s : State} {e : Fault} (h : step s = .fault e) :
    Sys2Proof.core.run (n + 1) s = .fault e := by
  have key : ∀ (M : Host.Core) (s : M.State) (e : M.Fault), M.step s = .fault e → M.run (n + 1) s = .fault e := by
    intro M s e h
    simp [Host.Core.run, h]
  exact key Sys2Proof.core s e h

theorem core_run_of_refused {n : Nat} {s : State} {e : Refusal} (h : step s = .refused e) :
    Sys2Proof.core.run (n + 1) s = .refused e := by
  have key : ∀ (M : Host.Core) (s : M.State) (e : M.Refusal), M.step s = .refused e → M.run (n + 1) s = .refused e := by
    intro M s e h
    simp [Host.Core.run, h]
  exact key Sys2Proof.core s e h

theorem runUntilIdle_idle (n : Nat) {s : State} (h : s.status.busy = false) : runUntilIdle n s = .next s := by
  cases n <;> simp [runUntilIdle, h]

theorem runUntilIdle_busy (n : Nat) {s t : State} (h : s.status.busy = true) (he : engineTurn s = .next t) :
    runUntilIdle (n + 1) s = runUntilIdle n t := by
  simp [runUntilIdle, h, he]

/-! ### Turns of the engine alone -/

@[simp] theorem engineTurns_zero (s : State) : engineTurns 0 s = .next s := rfl

theorem engineTurns_of_next {n : Nat} {s t : State} (h : engineTurn s = .next t) :
    engineTurns (n + 1) s = engineTurns n t := by
  simp [engineTurns, h]

/-- Everything `n + 1` engine turns can do when the machine goes on: one turn, then `n`. -/
theorem engineTurns_next {n : Nat} {s u : State} (h : engineTurns (n + 1) s = .next u) :
    ∃ t, engineTurn s = .next t ∧ engineTurns n t = .next u := by
  simp only [engineTurns] at h
  cases he : engineTurn s with
  | next t => exact ⟨t, rfl, by simpa [he] using h⟩
  | fault e => simp [he] at h
  | refused e => simp [he] at h

@[simp] theorem engineTurnsAmong_zero (q : List HostTurn) : engineTurnsAmong 0 q = 0 := by
  cases q <;> rfl

@[simp] theorem engineTurnsAmong_nil (n : Nat) : engineTurnsAmong n [] = n := by
  cases n <;> rfl

@[simp] theorem engineTurnsAmong_wait (n : Nat) (q : List HostTurn) : engineTurnsAmong n (.wait :: q) = n := by
  cases n <;> rfl

@[simp] theorem engineTurnsAmong_engine (n : Nat) (q : List HostTurn) :
    engineTurnsAmong (n + 1) (.engine :: q) = engineTurnsAmong n q + 1 := rfl

@[simp] theorem engineTurnsAmong_read (n k : Nat) (q : List HostTurn) :
    engineTurnsAmong (n + 1) (.read k :: q) = engineTurnsAmong n q := rfl

@[simp] theorem engineTurnsAmong_write (n k x : Nat) (q : List HostTurn) :
    engineTurnsAmong (n + 1) (.write k x :: q) = engineTurnsAmong n q := rfl

/-! ### The widths after a command's end -/

/-- The end-of-command widths say nothing of an engine that is not idle. -/
theorem endedInRange_of_phase {s : State} (h : s.phase ≠ .idle) : EndedInRange s := fun h' => absurd h' h

/-- They say nothing after a command that ended in an error. -/
theorem endedInRange_of_err {s : State} (h : s.status.err ≠ 0#4) : EndedInRange s := fun _ _ h' => absurd h' h

end Sys2Proof.Machine
end

