-- ==== Sys2Proof/Laws/PerInstr.lean ====
section
/-! SUPPORT. Per command: where format C puts each field of the encoded word (30_encoding.md R81, R83). -/

namespace Sys2Proof.Laws.FormatC

/-- The encoded word of a command has the reserved byte zero and the operation and the two sizes in their fields. -/
def Statement (i : Instr) : Prop :=
  rsvField (encode i) = 0#8 ∧ opField (encode i) = i.op ∧ bsField (encode i) = i.bs ∧ ksField (encode i) = i.ks

/-- Reading a byte back out of the concatenation of four bytes. -/
theorem fields_of_append (a b c d : BitVec 8) :
    (a ++ b ++ c ++ d : BitVec 32).extractLsb' 24 8 = a ∧ (a ++ b ++ c ++ d : BitVec 32).extractLsb' 0 8 = d ∧
      (a ++ b ++ c ++ d : BitVec 32).extractLsb' 8 8 = c ∧ (a ++ b ++ c ++ d : BitVec 32).extractLsb' 16 8 = b := by
  refine ⟨?_, ?_, ?_, ?_⟩ <;>
    (apply BitVec.eq_of_getLsbD_eq; intro k hk
     simp only [BitVec.getLsbD_extractLsb', BitVec.getLsbD_append, hk, decide_true, Bool.true_and]
     split_ifs <;> first | omega | (congr 1; omega))

theorem enc (bs ks : BitVec 8) : Statement (.enc bs ks) := fields_of_append 0#8 ks bs 1#8

theorem dec (bs ks : BitVec 8) : Statement (.dec bs ks) := fields_of_append 0#8 ks bs 2#8

theorem atk (bs ks : BitVec 8) : Statement (.atk bs ks) := fields_of_append 0#8 ks bs 3#8

theorem kexp (bs ks : BitVec 8) : Statement (.kexp bs ks) := fields_of_append 0#8 ks bs 4#8

end Sys2Proof.Laws.FormatC
end

