-- ==== Sys2Proof/Tests/Slice0.lean ====
section
/-! SUPPORT. Tests and witnesses. Every expected value is the spec's: a row of 95_test_vectors.md (its section is named), the word
rows of 30_encoding.md R84, or a rule worked out by hand. The second half holds one witness for every obligation that has
hypotheses. -/

namespace Sys2Proof.Tests

open Sys2Proof Sys2Proof.Machine

/-- The next state of a result, if there is one. -/
def nextState (r : Result) : Option State :=
  match r with
  | .next t => some t
  | .fault _ => none
  | .refused _ => none

/-- The reset state with the word `w` issued and the phase `p` reached. -/
def inPhase (w : Word) (p : Phase) : State := { issue w State.reset with phase := p }

/-- The reset state with the host's turns `q`. -/
def withTurns (q : List HostTurn) : State := State.reset.withScript q

/-- The key of the (32, 64) vector of section 1. -/
def key32 : KeyBits := 0x1918111009080100#128

/-- The key of the (48, 96) vector of section 1. -/
def key48 : KeyBits := 0x1A19181211100A0908020100#128

/-- The key of the (64, 128) vector of section 1. -/
def key64 : KeyBits := 0x1B1A1918131211100B0A090803020100#128

/-! ### Well-formedness: ill-formed terms are refused -/

theorem test_wellFormed_refuses_mixed_pair : (Instr.enc 32 96).wellFormed = false := by decide

theorem test_wellFormed_refuses_swapped_pair : (Instr.dec 64 32).wellFormed = false := by decide

theorem test_wellFormed_refuses_zero_pair : (Instr.kexp 0 0).wellFormed = false := by decide

theorem test_wellFormed_refuses_near_miss : (Instr.atk 64 127).wellFormed = false := by decide

theorem test_wellFormed_accepts : (Instr.atk 64 128).wellFormed = true := by decide

/-! ### Decoding, from words written out bit by bit: RSV, KS, BS, OP (R81, R83) -/

theorem test_decode_enc : decode 0b00000000_01000000_00100000_00000001#32 = some (.enc 32 64) := by decide

theorem test_decode_dec : decode 0b00000000_01100000_00110000_00000010#32 = some (.dec 48 96) := by decide

theorem test_decode_atk : decode 0b00000000_10000000_01000000_00000011#32 = some (.atk 64 128) := by decide

theorem test_decode_kexp : decode 0b00000000_01000000_00100000_00000100#32 = some (.kexp 32 64) := by decide

/-- Section 9: `ENC, bs = 32, ks = 96` decodes; it is no legal command but a command. -/
theorem test_decode_unsupported_pair : decode 0x00602001#32 = some (.enc 32 96) := by decide

theorem test_decode_rejects_operation : decodeWord 0x004020FF#32 = .rejected .noSuchOperation := by decide

/-- Section 9: the reserved byte comes before the operation. -/
theorem test_decode_rejects_reserved : decodeWord 0xFF602000#32 = .rejected .reservedByteNotZero := by decide

theorem test_decodeTableWord : decodeTableWord 32 0x00804002 = some (.dec 64 128) := by decide

/-! ### Functions -/

/-- Section 2: a bit leaves at the top and enters at the bottom, in every word size. -/
theorem test_rol : rol .v32 0x8421#32 1 = some 0x0843#32 ∧ rol .v48 0x080000#32 5 = some 0x000001#32 ∧
    rol .v64 0x656B696C#32 5 = some 0xAD6D2D8C#32 := by decide

/-- R120, 93 U6: no value at 0 and at the word size. -/
theorem test_rol_outside : rol .v32 0x8421#32 0 = none ∧ rol .v32 0x8421#32 16 = none ∧ rol .v48 1#32 24 = none ∧
    rol .v64 1#32 32 = none := by decide

/-- Section 2. -/
theorem test_f : f .v32 0x8421#32 = 0x8C63#32 ∧ f .v32 0x5C1B#32 = 0xB83D#32 ∧ f .v48 0x726963#32 = 0xA4FAA4#32 ∧
    f .v64 0x656B696C#32 = 0xEFBFFBD4#32 := by decide

/-- Section 2: one forward step and its inverse. -/
theorem test_fwd_inv : fwd .v32 { left := 0x6565#32, right := 0x6877#32 } 0x0100#32 = { left := 0x8799#32, right := 0x6565#32 } ∧
    inv .v64 { left := 0xCCD994A1#32, right := 0x656B696C#32 } 0x03020100#32 =
      { left := 0x656B696C#32, right := 0x20646E75#32 } := by decide

/-- The bits of a sequence written as a string. -/
def bits (x : String) : List Bool := x.toList.map (· == '1')

/-- Section 3. -/
theorem test_seq : seq .v32 = bits "11111000110111010100001001011001" ∧
    seq .v48 = bits "111110001101110101000010010110011111" ∧
    seq .v64 = bits "11111100000100001100010100111101000111001001" := by decide +kernel

/-- Section 3: the window after the last round. -/
theorem test_window_end : lfsrWindow .v32 32 = 0b001111#6 ∧ lfsrWindow .v48 36 = 0b011000#6 ∧
    lfsrWindow .v64 44 = 0b110110#6 := by decide +kernel

/-- Section 1: the last round keys. -/
theorem test_keySchedule : keySchedule .v32 key32 31 = 0x7FBE#32 ∧ keySchedule .v48 key48 35 = 0xDA7A12#32 ∧
    keySchedule .v64 key64 43 = 0x3D5EAB8F#32 := by decide +kernel

/-- Section 3: corner-case keys. -/
theorem test_keySchedule_corners : keySchedule .v32 0#128 4 = 0xFFFD#32 ∧ keySchedule .v32 0#128 31 = 0xD9A8#32 ∧
    keySchedule .v48 0xFFFFFFFFFFFFFFFFFFFFFFFF#128 4 = 0x000002#32 ∧
    keySchedule .v64 0x80000000000000000000000000000000#128 43 = 0x1AAAABA3#32 := by decide +kernel

/-- Section 1. -/
theorem test_encrypt : encrypt .v32 (keySchedule .v32 key32) 0x65656877#64 = 0x770D2C76#64 ∧
    encrypt .v48 (keySchedule .v48 key48) 0x72696320646E#64 = 0xF3CF25E33B36#64 ∧
    encrypt .v64 (keySchedule .v64 key64) 0x656B696C20646E75#64 = 0x45CE69025F7AB7ED#64 := by decide +kernel

/-- Sections 5 and 10 (program 5). -/
theorem test_decrypt : decrypt .v32 (keySchedule .v32 key32) 0x770D2C76#64 = 0x65656877#64 ∧
    decrypt .v32 (keySchedule .v32 0#128) 0#64 = 0xEE463AAF#64 ∧
    decrypt .v64 (keySchedule .v64 key64) 0x45CE69025F7AB7ED#64 = 0x656B696C20646E75#64 := by decide +kernel

/-- Section 6: faulted ciphertexts of the first and the last trial. -/
theorem test_faultedEncrypt : faultedEncrypt .v32 (keySchedule .v32 key32) 0 0x65656877#64 = 0x776B2C75#64 ∧
    faultedEncrypt .v32 (keySchedule .v32 key32) 9 0x65656877#64 = 0xBF0D6A76#64 ∧
    faultedEncrypt .v64 (keySchedule .v64 key64) 21 0x656B696C20646E75#64 = 0x496E69025F1AB7ED#64 := by decide +kernel

/-- Section 6, the worked trial 0 and trial 4, whose bit a is 0. -/
theorem test_recoverTrial : recoverTrial .v32 0 0x770D2C76#64 0x776B2C75#64 = { ka := true, kb := true } ∧
    recoverTrial .v32 4 0x770D2C76#64 0x735D2C56#64 = { ka := false, kb := true } ∧
    recoverTrialMsb .v32 4 0x770D2C76#64 0x735D2C56#64 = { ka := false, kb := true } := by decide

/-- Section 6: the accumulator after seven trials. -/
theorem test_sessionMap : sessionMap .v32 (keySchedule .v32 key32) 0x65656877#64 0x770D2C76#64 7 =
    { acc := 0x7FA2#32, accv := 0xFFE3#32 } := by decide +kernel

/-- Sections 1 and 7. -/
theorem test_attackSession : attackSession .v32 0x65656877#64 0x770D2C76#64 key32 = 0x7FBE#32 ∧
    attackSession .v48 0x72696320646E#64 0xF3CF25E33B36#64 key48 = 0xDA7A12#32 := by decide +kernel

/-- Section 8: genuine or not, the session has a result; overwritten bits keep the later value (R197). -/
theorem test_attackSession_not_genuine : attackSession .v32 0x65656877#64 0#64 key32 = 0xF078#32 ∧
    attackSession .v32 0x65656877#64 0x770D2C77#64 key32 = 0x7F9D#32 ∧
    attackSession .v32 0x65656877#64 0x2C76770D#64 key32 = 0x2400#32 := by decide +kernel

/-! ### One micro-step of each command -/

/-- Section 4, last row: the ENC micro-step with `I = 31` writes `DOUT` and ends the command. -/
theorem test_enc_last_round :
    (nextState (exec (.enc 32 64)
      { (inPhase 0x00402001#32 .enc).storeRk 31 0x7FBE#32 with l := 0x2C76#32, r := 0x5C1B#32, i := 31#6 })).map
        (fun t => (t.dout, t.status.word, t.phase)) = some (0x770D2C76#64, 0x00000002#32, .idle) := by decide +kernel

/-- Section 9: `DIN = 2^32` is InvalidArgument. -/
theorem test_enc_din_too_wide :
    (nextState (exec (.enc 32 64) { inPhase 0x00402001#32 .check with din := 0x100000000#64 })).map
        (fun t => (t.status.word, t.phase)) = some (0x00000012#32, .idle) := by decide +kernel

/-- Section 5, last row: the DEC micro-step with `I = 0` writes `DOUT` and ends the command. -/
theorem test_dec_last_round :
    (nextState (exec (.dec 32 64)
      { (inPhase 0x00402002#32 .dec).storeRk 0 0x0100#32 with l := 0x8799#32, r := 0x6565#32, i := 0#6 })).map
        (fun t => (t.dout, t.status.word, t.phase)) = some (0x65656877#64, 0x00000002#32, .idle) := by decide +kernel

/-- R217: `DEC` starts its rounds at `I = rc - 1`. -/
theorem test_dec_starts_at_last_round :
    (nextState (exec (.dec 48 96) { inPhase 0x00603002#32 .ks with i := 35#6, din := 0xF3CF25E33B36#64 })).map
        (fun t => (t.i, t.l, t.r, t.phase)) = some (35#6, 0xF3CF25#32, 0xE33B36#32, .dec) := by decide +kernel

/-- Section 6: the last AREC micro-step of the first session reads out `RKOUT`. -/
theorem test_atk_last_trial :
    (nextState (exec (.atk 32 64) { inPhase 0x00402003#32 .arec with
      j := 9#5, gct := 0x770D2C76#64, cf := 0xBF0D6A76#64, acc := 0x7FAE#32, accv := 0xFFEF#32 })).map
        (fun t => (t.rkout, t.accv, t.status.word)) = some (0x7FBE#32, 0xFFFF#32, 0x00000002#32) := by decide +kernel

/-- Section 6, worked trial 0: the fault enters in round 30, `L` becomes 0x5C1A, and the round gives (0x2C75, 0x5C1A). -/
theorem test_atk_fault_round :
    (nextState (exec (.atk 32 64)
      { (inPhase 0x00402003#32 .aenc).storeRk 30 0x92B1#32 with l := 0x5C1B#32, r := 0x06FA#32, i := 30#6 })).map
        (fun t => (t.l, t.r, t.i)) = some (0x2C75#32, 0x5C1A#32, 31#6) := by decide +kernel

/-- Section 3, the worked round 0 of the key register trace. -/
theorem test_kexp_round :
    (nextState (exec (.kexp 32 64) { inPhase 0x00402004#32 .ks with
      t := { t0 := 0x0100#32, t1 := 0x0908#32, t2 := 0x1110#32, t3 := 0x1918#32 }, swin := 0b011111#6 })).map
        (fun t => (t.rkAt 0, t.t.t3, t.swin, t.i)) = some (0x0100#32, 0xEDED#32, 0b001111#6, 1#6) := by decide +kernel

/-- Section 10, program 1: the state after the CHECK micro-step. -/
theorem test_kexp_loads :
    (nextState (exec (.kexp 32 64) { inPhase 0x00402004#32 .check with key := key32 })).map
        (fun t => (t.t, t.swin, t.status.word, t.phase)) =
      some ({ t0 := 0x0100#32, t1 := 0x0908#32, t2 := 0x1110#32, t3 := 0x1918#32 }, 0b011111#6, 0x00000001#32, .ks) := by
  decide +kernel

/-! ### Steps -/

/-- A command placed right after reset is run by the very next step: with every operand zero it passes CHECK. -/
theorem test_step_runs_placed_word :
    (nextState (step (State.reset.withFetchWord 32 0x00804003))).map (fun t => (t.cmd, t.status.word, t.phase)) =
      some (0x00804003#32, 0x00000001#32, .ks) := by decide +kernel

/-- Section 9: the all-zero word is IllegalCommand. -/
theorem test_step_illegal_word :
    (nextState (step (State.reset.withFetchWord 32 0))).map (fun t => (t.status.word, t.phase)) =
      some (0x00000032#32, .idle) := by decide +kernel

/-- Section 9: a bad pair comes before a bad key. -/
theorem test_step_unsupported_first :
    (nextState (step ({ State.reset with key := 0x80000000000000000000000000000000#128 }.withFetchWord 32 0x00602003))).map
      (fun t => t.status.word) = some 0x00000022#32 := by decide +kernel

/-- Section 10, program 5: a write of `KEY` while busy is dropped. -/
theorem test_step_write_dropped_while_busy :
    (nextState (step { inPhase 0x00402001#32 .ks with key := key32, host := { script := [.write 2 0], seen := [] } })).map
      (fun t => t.key) = some key32 := by decide +kernel

/-- R61, R62: register 0x6B is `RK[43]`. -/
theorem test_step_read_last_round_key :
    (nextState (step ((withTurns [.read 0x6B]).storeRk 43 0x3D5EAB8F#32))).map (fun t => t.host.seen) =
      some [(0x6B, 0x3D5EAB8F)] := by decide +kernel

/-- R64: register 0x6C is unmapped. -/
theorem test_step_read_unmapped : step (withTurns [.read 0x6C]) = .refused (.unmappedRegister 0x6C) := rfl

/-- R63: a value the register cannot hold is no host event. -/
theorem test_step_write_too_wide : step (withTurns [.write 3 0x10000000000000000]) =
    .refused (.valueTooWide 3 0x10000000000000000) := rfl

/-- R87, R88: the macro `encrypt(p, k) @ 32,64` as register accesses. -/
theorem test_script_encrypt : expandScript [.encrypt 0x65656877 0x1918111009080100 32 64] =
    [.write 2 0x1918111009080100, .write 3 0x65656877, .write 0 0x00402001, .wait, .read 1, .read 5] := by decide

/-! ### One witness for every obligation with hypotheses

Each theorem is named after its obligation and shows operands and states that meet all hypotheses of a clause together, for every
clause, at the ends of the ranges. -/

theorem witness_ConstantSequenceRecurrence : 0 < Variant.v32.rc ∧ 4 < Variant.v32.lw ∧
    (Variant.v48.lw = 5 ∧ 5 ≤ 5 ∧ 35 < Variant.v48.rc) ∧ (Variant.v64.lw = 6 ∧ 6 ≤ 6 ∧ 43 < Variant.v64.rc) := by decide

theorem witness_WindowProducesTheSequence : 43 < Variant.v64.rc ∧ 0 < Variant.v64.lw ∧ 43 + 0 < Variant.v64.rc ∧
    5 < Variant.v64.lw ∧ 38 + 5 < Variant.v64.rc := by decide

theorem witness_RotationIsPartialAndRotates : Fits .v32 0xFFFF#32 ∧ ¬(0 < 0 ∧ 0 < Variant.v32.ws) ∧
    ¬(0 < 16 ∧ 16 < Variant.v32.ws) ∧ (0 < 1 ∧ 1 < Variant.v32.ws) ∧ (0 < 15 ∧ 15 < Variant.v32.ws) := by decide

theorem witness_RoundFunctionBitByBit : Fits .v48 0xFFFFFF#32 ∧ 0 < Variant.v48.ws ∧ 23 < Variant.v48.ws := by decide

theorem witness_WidthClosure : Fits .v32 0xFFFF#32 ∧ Fits .v32 0x8000#32 ∧
    HalvesFit .v32 { left := 0xFFFF#32, right := 0x0001#32 } ∧ rol .v32 0xFFFF#32 15 = some 0xFFFF#32 := by decide

theorem witness_RoundFunctionCommutesWithRotation : Fits .v32 0x8421#32 ∧ rol .v32 0x8421#32 1 = some 0x0843#32 := by decide

theorem witness_DifferenceUnderOneFlippedBit : Fits .v32 0x5C1B#32 ∧ 15 < Variant.v32.ws ∧ 0 < Variant.v32.ws ∧
    bitIndex .v32 ((15 : Nat) + 1 : Int) = 0 ∧ bitIndex .v32 ((15 : Nat) + 5 : Int) = 4 := by decide

theorem witness_KeyLoadsLeastSignificantWordFirst : 3 < 4 ∧ (0xFFFFFFFFFFFFFFFF#128).toNat < 2 ^ Variant.v32.ks := by decide

theorem witness_RoundKeyRecurrence : 3 < 4 ∧ 0 + 5 ≤ Variant.v32.rc ∧ 27 + 5 ≤ Variant.v32.rc := by decide

theorem witness_BlocksSplitAndJoin : (0xFFFFFFFF#64).toNat < 2 ^ Variant.v32.bs ∧
    HalvesFit .v32 { left := 0xFFFF#32, right := 0xFFFF#32 } := by decide

theorem witness_DecryptAndEncryptAreInverse : (0xFFFFFFFFFFFF#64).toNat < 2 ^ Variant.v48.bs := by decide

theorem witness_RecoveryFormsAgree : 0 < Variant.v32.ntrials ∧ 21 < Variant.v64.ntrials := by decide

theorem witness_TrialRecoversLastRoundKeyBits : (0xFFFFFFFF#64).toNat < 2 ^ Variant.v32.bs ∧ 9 < Variant.v32.ntrials := by decide

/-- The state of the first session of section 6, before command issue. -/
def sessionState : State := { State.reset with key := key32, din := 0x65656877#64, gct := 0x770D2C76#64 }

theorem witness_AttackRecoversLastRoundKey : sessionState.status.busy = false ∧ lookupVariant 32 64 = some .v32 ∧
    sessionState.key.toNat < 2 ^ Variant.v32.ks ∧ sessionState.din.toNat < 2 ^ Variant.v32.bs ∧
    sessionState.gct = encrypt .v32 (keySchedule .v32 sessionState.key) sessionState.din := by decide +kernel

theorem witness_ResetEventFromAnyState :
    ({ inPhase 0x00402001#32 .ks with host := { script := [.reset, .engine], seen := [] } }).host.script =
      .reset :: [.engine] := by decide

theorem witness_HostReadReturnsTheRegister : (∀ n, (withTurns [.read n]).host.script = .read n :: []) ∧
    (0 < 44 ∧ 0x40 = 0x40 + 0) ∧ (43 < 44 ∧ 0x6B = 0x40 + 43) ∧ (7 ≤ 7 ∧ 7 ≤ 0x3F) ∧ (7 ≤ 0x3F ∧ 0x3F ≤ 0x3F) ∧
    0x6C ≤ 0x6C := ⟨fun _ => rfl, by decide⟩

theorem witness_HostCannotDisturbARunningCommand :
    let s := inPhase 0x00402001#32 .ks
    s.status.busy = true ∧ (s.withScript [.write 0x6C 0]).host.script = .write 0x6C 0 :: [] ∧
      (s.withScript [.read 0x6B]).host.script = .read 0x6B :: [] ∧ (Reg.ofNumber 0x6B).isSome = true := by decide

theorem witness_HostWriteWhileIdle : State.reset.status.busy = false ∧
    (∀ n x, (withTurns [.write n x]).status.busy = false ∧ (withTurns [.write n x]).host.script = .write n x :: []) ∧
    0xFFFFFFFF < 2 ^ 32 ∧
    0xFFFFFFFFFFFFFFFFFFFFFFFFFFFFFFFF < 2 ^ 128 ∧ 0xFFFFFFFFFFFFFFFF < 2 ^ 64 ∧ (0x40 ≤ 0x40 ∧ 0x40 ≤ 0x6B) ∧
    (0x40 ≤ 0x6B ∧ 0x6B ≤ 0x6B) ∧ (7 ≤ 7 ∧ 7 ≤ 0x3F) ∧ (7 ≤ 0x3F ∧ 0x3F ≤ 0x3F) ∧ 0x6C ≤ 0x6C :=
  ⟨rfl, fun _ _ => ⟨rfl, rfl⟩, by decide⟩

theorem witness_StepRunsTheDecodedCommand :
    let s := inPhase 0x00402001#32 .check
    s.status.busy = true ∧ decode s.cmd = some (.enc 32 64) ∧ s.host.script = [] ∧
      (s.withScript [.engine]).host.script = .engine :: [] ∧ (s.withScript [.wait]).host.script = .wait :: [] ∧
      s.status.done = false := by decide

theorem witness_FetchedWordRunsNext : decodeTableWord 32 0x00402001 = some (.enc 32 64) ∧
    decodeTableWord 32 0x00FFFF04 = some (.kexp 255 255) := by decide

theorem witness_IllegalWordTakesIllegalCommand :
    let s := inPhase 0x00402005#32 .check
    let s' := inPhase 0x01402001#32 .check
    (s.status.busy = true ∧ s.phase = .check ∧
      (opField s.cmd ≠ 1#8 ∧ opField s.cmd ≠ 2#8 ∧ opField s.cmd ≠ 3#8 ∧ opField s.cmd ≠ 4#8)) ∧
      (s'.status.busy = true ∧ s'.phase = .check ∧ rsvField s'.cmd ≠ 0#8) ∧
      s.host.script = [] ∧ (s.withScript [.engine]).host.script = .engine :: [] ∧
      (s.withScript [.wait]).host.script = .wait :: [] ∧ s.status.done = false := by decide

theorem witness_IdleEngineDoesNothing : State.reset.status.busy = false ∧ State.reset.host.script = [] ∧
    (withTurns [.engine]).host.script = .engine :: [] ∧ (withTurns [.wait]).host.script = .wait :: [] ∧
    State.reset.status.done = false ∧
    ((finish 0#4 (withTurns [.wait])).status.busy = false ∧ (finish 0#4 (withTurns [.wait])).host.script = .wait :: [] ∧
      (finish 0#4 (withTurns [.wait])).status.done = true) := by decide

theorem witness_CheckRaisesUnsupportedParameters : (inPhase 0x00602001#32 .check).phase = .check ∧
    (Instr.enc 32 96).wellFormed = false := by decide

theorem witness_CheckRaisesInvalidArgument :
    let s := inPhase 0x00402003#32 .check
    s.phase = .check ∧ lookupVariant (Instr.atk 32 64).bs (Instr.atk 32 64).ks = some .v32 ∧
      2 ^ Variant.v32.ks ≤ ({ s with key := 0x10000000000000000#128 }).key.toNat ∧
      ((Instr.enc 32 64).op ≠ 4#8 ∧ 2 ^ Variant.v32.bs ≤ ({ s with din := 0x100000000#64 }).din.toNat) ∧
      ((Instr.atk 32 64).op = 3#8 ∧ 2 ^ Variant.v32.bs ≤ ({ s with gct := 0x100000000#64 }).gct.toNat) := by decide

theorem witness_CheckPassesAndLoads :
    let s := { inPhase 0x00402003#32 .check with key := 0xFFFFFFFFFFFFFFFF#128, din := 0xFFFFFFFF#64, gct := 0xFFFFFFFF#64 }
    s.phase = .check ∧ lookupVariant (Instr.atk 32 64).bs (Instr.atk 32 64).ks = some .v32 ∧
      s.key.toNat < 2 ^ Variant.v32.ks ∧ ((Instr.atk 32 64).op ≠ 4#8 → s.din.toNat < 2 ^ Variant.v32.bs) ∧
      ((Instr.atk 32 64).op = 3#8 → s.gct.toNat < 2 ^ Variant.v32.bs) := by decide

theorem witness_KeyScheduleMicroStep :
    let s := { inPhase 0x00402004#32 .ks with i := 30#6 }
    s.phase = .ks ∧ lookupVariant (Instr.kexp 32 64).bs (Instr.kexp 32 64).ks = some .v32 ∧
      s.i.toNat + 1 < Variant.v32.rc := by decide

theorem witness_KexpCompletes :
    let s := { inPhase 0x00804004#32 .ks with i := 43#6 }
    s.phase = .ks ∧ lookupVariant 64 128 = some .v64 ∧ s.i.toNat + 1 = Variant.v64.rc := by decide

theorem witness_ScheduleEndsInTheCommandsPhase :
    let s := { inPhase 0x00603002#32 .ks with i := 35#6 }
    s.phase = .ks ∧ lookupVariant 48 96 = some .v48 ∧ s.i.toNat + 1 = Variant.v48.rc := by decide

theorem witness_EncRoundAndCompletion :
    let s := inPhase 0x00402001#32 .enc
    s.phase = .enc ∧ lookupVariant 32 64 = some .v32 ∧ ({ s with i := 0#6 }).i.toNat + 1 < Variant.v32.rc ∧
      ({ s with i := 31#6 }).i.toNat + 1 = Variant.v32.rc := by decide

theorem witness_DecRoundAndCompletion :
    let s := inPhase 0x00402002#32 .dec
    s.phase = .dec ∧ lookupVariant 32 64 = some .v32 ∧
      (0 < ({ s with i := 31#6 }).i.toNat ∧ ({ s with i := 31#6 }).i.toNat < Variant.v32.rc) ∧ s.i.toNat = 0 := by decide

theorem witness_FaultedRoundOfATrial :
    let s := inPhase 0x00402003#32 .aenc
    s.phase = .aenc ∧ lookupVariant 32 64 = some .v32 ∧
      (({ s with i := 30#6 }).i.toNat + 1 < Variant.v32.rc ∧ ({ s with i := 30#6 }).i.toNat = Variant.v32.rc - 2) ∧
      ({ s with i := 31#6 }).i.toNat + 1 = Variant.v32.rc := by decide

/-- Trial 4 of the first session of section 6, whose bit `a` is 15 and bit `b` is 9. -/
theorem witness_RecoveryStepAndAttackCompletion :
    let s := { inPhase 0x00402003#32 .arec with
      j := 4#5, gct := 0x770D2C76#64, cf := 0x735D2C56#64, acc := 0x79A0#32, accv := 0x79E0#32 }
    s.phase = .arec ∧ lookupVariant 32 64 = some .v32 ∧ s.j.toNat < Variant.v32.ntrials ∧
      (∀ k, k < 32 → (0x7BA0#32).getLsbD k = if k = 9 then true else if k = 15 then false else s.acc.getLsbD k) ∧
      (∀ k, k < 32 → (0xFBE0#32).getLsbD k = if k = 9 ∨ k = 15 then true else s.accv.getLsbD k) ∧
      s.j.toNat + 1 < Variant.v32.ntrials := by decide +kernel

/-- Trial 9, the last, whose bit `a` is 4 and bit `b` is 14. -/
theorem witness_RecoveryStepAndAttackCompletion_last :
    let s := { inPhase 0x00402003#32 .arec with
      j := 9#5, gct := 0x770D2C76#64, cf := 0xBF0D6A76#64, acc := 0x7FAE#32, accv := 0xFFEF#32 }
    s.phase = .arec ∧ lookupVariant 32 64 = some .v32 ∧ s.j.toNat < Variant.v32.ntrials ∧
      (∀ k, k < 32 → (0x7FBE#32).getLsbD k = if k = 14 then true else if k = 4 then true else s.acc.getLsbD k) ∧
      (∀ k, k < 32 → (0xFFFF#32).getLsbD k = if k = 14 ∨ k = 4 then true else s.accv.getLsbD k) ∧
      s.j.toNat + 1 = Variant.v32.ntrials := by decide +kernel

theorem witness_MicroStepsLeaveOperandsAndHost : ∃ t, exec (.enc 32 64) (inPhase 0x00402001#32 .check) = .next t := ⟨_, rfl⟩

theorem witness_FrameOfEachCommand :
    (∃ t, exec (.enc 32 64) (inPhase 0x00402001#32 .enc) = .next t) ∧
    (∃ t, exec (.dec 32 64) (inPhase 0x00402002#32 .dec) = .next t) ∧
    (∃ t, exec (.atk 32 64) (inPhase 0x00402003#32 .arec) = .next t) ∧
    (∃ t, exec (.kexp 32 64) (inPhase 0x00402004#32 .ks) = .next t) := ⟨⟨_, rfl⟩, ⟨_, rfl⟩, ⟨_, rfl⟩, ⟨_, rfl⟩⟩

theorem witness_StoreWrittenOnlyByTheKeySchedule :
    (∃ t, exec (.kexp 32 64) { inPhase 0x00402004#32 .ks with i := 31#6 } = .next t) ∧
    lookupVariant (Instr.kexp 32 64).bs (Instr.kexp 32 64).ks = some .v32 ∧ 32 ≠ (31#6).toNat ∧
    (31#6).toNat < Variant.v32.rc ∧ Variant.v32.rc ≤ 32 ∧
    (∃ t, exec (.enc 32 64) (inPhase 0x00402001#32 .enc) = .next t) ∧ (inPhase 0x00402001#32 .enc).phase ≠ .ks :=
  ⟨⟨_, rfl⟩, by decide, by decide, by decide, by decide, ⟨_, rfl⟩, by decide⟩

/-- The last ENC micro-step of section 4, which changes `DOUT`, and the CHECK micro-step, which does not end the command. -/
theorem witness_ResultsChangeOnlyAtCommandEnd :
    (∃ t, exec (.enc 32 64) (inPhase 0x00402001#32 .check) = .next t ∧ t.phase ≠ .idle) ∧
    (∃ t, exec (.enc 32 64)
      { (inPhase 0x00402001#32 .enc).storeRk 31 0x7FBE#32 with l := 0x2C76#32, r := 0x5C1B#32, i := 31#6 } = .next t ∧
      t.phase = .idle ∧ t.dout ≠ 0#64) := ⟨⟨_, rfl, by decide⟩, ⟨_, rfl, by decide, by decide⟩⟩

/-- The state after the CHECK micro-step of `ENC 32, 64` from reset. -/
def afterCheck : State := checkLoads .v32 (issue 0x00402001#32 State.reset)

theorem afterCheck_running : Running (.enc 32 64) .v32 afterCheck where
  decoded := by decide
  supported := by decide
  operands := by decide +kernel
  phase := by decide
  counters := show 0 < 32 by decide
  widths := ⟨⟨by decide +kernel, by decide⟩, fun _ h => absurd h (Nat.not_lt_zero _)⟩

theorem afterCheck_coherent : Coherent afterCheck :=
  ⟨by decide, by decide, fun h => absurd h (by decide), .inr (.inr ⟨_, _, afterCheck_running⟩)⟩

/-- A state in which `ATK 32, 64` has just ended without error, its recovered key at the top of its range. -/
def afterAttack : State := finish 0#4 { issue 0x00402003#32 State.reset with rkout := 0xFFFF#32, acc := 0xFFFF#32, accv := 0xFFFF#32 }

theorem afterAttack_coherent : Coherent afterAttack :=
  ⟨by decide, by decide, fun _ _ _ => ⟨.atk 32 64, .v32, by decide, by decide,
    show ScheduleRegsFit .v32 afterAttack ∧ RoundKeysFit .v32 Variant.v32.rc afterAttack ∧ HalvesFit .v32 afterAttack.halves ∧
      Fits .v32 afterAttack.acc ∧ Fits .v32 afterAttack.accv ∧ afterAttack.cf.toNat < 2 ^ Variant.v32.bs ∧
      Fits .v32 afterAttack.rkout by decide +kernel⟩, .inl rfl⟩

theorem witness_EveryStepKeepsCoherence : (Coherent afterCheck ∧ ∃ t, step afterCheck = .next t) ∧
    Coherent afterAttack ∧ ∃ t, step afterAttack = .next t :=
  ⟨⟨afterCheck_coherent, _, rfl⟩, afterAttack_coherent, _, rfl⟩

theorem witness_CoherentMachineNeverFaults :
    (Coherent afterCheck ∧ afterCheck.status.busy = true) ∧
    Coherent (withTurns [.read 7]) ∧ step (withTurns [.read 7]) = .refused (.unmappedRegister 7) :=
  ⟨⟨afterCheck_coherent, by decide⟩, ⟨by decide, by decide, fun _ h => absurd h (by decide), .inl rfl⟩, rfl⟩

theorem witness_EveryStepStaysOnCourse :
    Coherent afterCheck ∧ ComputesItsCommand afterCheck ∧ ∃ t, step afterCheck = .next t := by
  refine ⟨afterCheck_coherent, ?_, _, rfl⟩
  intro i v h
  have hi : i = .enc 32 64 := Option.some.inj (h.decoded.symm.trans afterCheck_running.decoded)
  subst hi
  have hv : v = .v32 := Option.some.inj (h.supported.symm.trans afterCheck_running.supported)
  subst hv
  exact ⟨rfl, rfl, fun _ hk => absurd hk (Nat.not_lt_zero _)⟩

theorem witness_KexpExpandsTheKey : sessionState.status.busy = false ∧ lookupVariant 32 64 = some .v32 ∧
    sessionState.key.toNat < 2 ^ Variant.v32.ks := by decide +kernel

theorem witness_EncEncryptsTheBlock :
    let s := { State.reset with key := 0xFFFFFFFFFFFFFFFF#128, din := 0xFFFFFFFF#64 }
    s.status.busy = false ∧ lookupVariant 32 64 = some .v32 ∧ s.key.toNat < 2 ^ Variant.v32.ks ∧
      s.din.toNat < 2 ^ Variant.v32.bs := by decide +kernel

theorem witness_DecDecryptsTheBlock :
    let s := { State.reset with key := key48, din := 0xF3CF25E33B36#64 }
    s.status.busy = false ∧ lookupVariant 48 96 = some .v48 ∧ s.key.toNat < 2 ^ Variant.v48.ks ∧
      s.din.toNat < 2 ^ Variant.v48.bs := by decide +kernel

/-- A ciphertext that is not genuine. -/
theorem witness_AtkRunsTheSession :
    let s := { sessionState with gct := 0xFFFFFFFF#64 }
    s.status.busy = false ∧ lookupVariant 32 64 = some .v32 ∧ s.key.toNat < 2 ^ Variant.v32.ks ∧
      s.din.toNat < 2 ^ Variant.v32.bs ∧ s.gct.toNat < 2 ^ Variant.v32.bs := by decide +kernel

theorem witness_FailedCommandChangesOnlyCmdAndStatus :
    (sessionState.status.busy = false ∧ sessionState.phase = .idle) ∧ decode 0x00402005#32 = none ∧
    (decode 0x00602001#32 = some (.enc 32 96) ∧ lookupVariant (Instr.enc 32 96).bs (Instr.enc 32 96).ks = none) ∧
    (decode 0x00402004#32 = some (.kexp 32 64) ∧ lookupVariant (Instr.kexp 32 64).bs (Instr.kexp 32 64).ks = some .v32 ∧
      operandsFit (.kexp 32 64) .v32 { State.reset with key := 0x10000000000000000#128 } = false) := by decide +kernel

theorem witness_MicroStepCounts :
    let s := inPhase 0x00804003#32 .check
    (s.phase = .check ∧ lookupVariant (Instr.atk 64 128).bs (Instr.atk 64 128).ks = some .v64 ∧
      operandsFit (.atk 64 128) .v64 s = true ∧ 1034 < microSteps .v64 (.atk 64 128)) ∧
    lookupVariant (Instr.enc 32 96).bs (Instr.enc 32 96).ks = none ∧
    (lookupVariant (Instr.enc 32 64).bs (Instr.enc 32 64).ks = some .v32 ∧
      operandsFit (.enc 32 64) .v32 { s with din := 0x100000000#64 } = false) ∧
    (s.status.busy = true ∧ decode ({ s with cmd := 0#32 }).cmd = none) := by decide +kernel

theorem witness_EveryCommandEnds : State.reset.status.busy = false := by decide

theorem witness_RunCommandIsTheMachinesOwnRun : State.reset.host.script = [] := by decide

/-- A read, a dropped write and the last ENC micro-step of section 4, which ends the command. -/
theorem witness_InterleavingDoesNotMatter :
    let s := { (inPhase 0x00402001#32 .enc).storeRk 31 0x7FBE#32 with
      l := 0x2C76#32, r := 0x5C1B#32, i := 31#6, host := { script := [.read 1, .write 0x6C 0, .engine], seen := [] } }
    s.status.done = false ∧
    (∀ x ∈ s.host.script, x ≠ .reset ∧ ∀ k, x = .read k → (Reg.ofNumber k).isSome = true) ∧
    (∀ m, m < 3 → ∃ x, engineTurns (engineTurnsAmong m s.host.script) s = .next x ∧ x.status.busy = true) ∧
    ∃ u, engineTurns (engineTurnsAmong 3 s.host.script) s = .next u ∧ u.status.busy = false ∧ u.dout = 0x770D2C76#64 := by
  refine ⟨by decide, ?_, ?_, _, rfl, by decide, by decide⟩
  · intro x hx
    fin_cases hx <;> refine ⟨by decide, fun k hk => ?_⟩ <;> cases hk
    rfl
  · intro m hm
    have h : m = 0 ∨ m = 1 ∨ m = 2 := by omega
    rcases h with rfl | rfl | rfl <;> exact ⟨_, rfl, rfl⟩

/-- A host that polls while a word that spells no command ends. -/
theorem witness_InterleavingDoesNotMatter_wait :
    let s := { inPhase 0x00402005#32 .check with host := { script := [.wait], seen := [] } }
    s.status.done = false ∧
    (∀ x ∈ s.host.script, x ≠ .reset ∧ ∀ k, x = .read k → (Reg.ofNumber k).isSome = true) ∧
    (∀ m, m < 1 → ∃ x, engineTurns (engineTurnsAmong m s.host.script) s = .next x ∧ x.status.busy = true) ∧
    ∃ u, engineTurns (engineTurnsAmong 1 s.host.script) s = .next u ∧ u.status.word = 0x00000032#32 := by
  refine ⟨by decide, ?_, ?_, _, rfl, by decide⟩
  · intro x hx
    fin_cases hx
    exact ⟨by decide, fun k hk => by cases hk⟩
  · intro m hm
    have h : m = 0 := by omega
    subst h
    exact ⟨_, rfl, rfl⟩

/-- The running command's own variant, and an idle engine about to take a write. -/
theorem witness_EveryStepStaysWithinTheWidestCommand :
    (Coherent afterCheck ∧ WithinWidths .v32 afterCheck ∧
      (∀ i w, decode afterCheck.cmd = some i → lookupVariant i.bs i.ks = some w → w.ws ≤ Variant.v32.ws) ∧
      ∃ t, step afterCheck = .next t) ∧
    WithinWidths .v32 afterAttack := by
  refine ⟨⟨afterCheck_coherent, by decide +kernel, ?_, _, rfl⟩, by decide +kernel⟩
  intro i w hd hw
  have hi : i = .enc 32 64 := Option.some.inj (hd.symm.trans afterCheck_running.decoded)
  subst hi
  have hv : w = .v32 := Option.some.inj (hw.symm.trans afterCheck_running.supported)
  subst hv
  exact Nat.le_refl _

end Sys2Proof.Tests
end

section
/-! PROOFS. The reset state (10_state.md R45). -/

namespace Sys2Proof.Machine

/-- The 44 entries of the store are reset to zero, and past them `rkAt` answers with its default, zero too. -/
@[simp] theorem rkAt_reset (k : Nat) : State.reset.rkAt k = 0#32 := by
  unfold State.rkAt State.reset
  by_cases hk : k < Config.rkDepth
  · simp [hk]
  · simp [hk]

@[simp] theorem status_word_reset : State.reset.status.word = 0#32 := by decide

/-- Settles O22: `RK` and the word read from `STATUS` by the lemmas above; `State.reset` writes every other register out. -/
theorem resetLeavesEverythingZero : Obligations.ResetLeavesEverythingZero :=
  ⟨rfl, rfl, status_word_reset, rfl, rfl, rfl, rfl, rfl, fun k _ => rkAt_reset k,
    rfl, rfl, rfl, rfl, rfl, rfl, rfl, rfl, rfl, rfl⟩

end Sys2Proof.Machine
end

section
/-! PROOFS. The loaded key register (42_key_schedule.md R140): a key is cut into chunks of `ws` bits, the lowest first. -/

namespace Sys2Proof.Machine

theorem toNat_trunc (v : Variant) (x : Word) : (trunc v x).toNat = x.toNat % 2 ^ v.ws := by
  apply Nat.eq_of_testBit_eq
  intro i
  rw [Nat.testBit_mod_two_pow, BitVec.testBit_toNat, BitVec.testBit_toNat, getLsbD_trunc, Bool.and_comm]

/-- The 32-bit register that takes a chunk of the key loses none of it, for `ws` is at most 32. -/
theorem toNat_keyWord (v : Variant) (key : KeyBits) (k : Nat) :
    (keyWord v key k).toNat = (key.toNat >>> (k * v.ws)) % 2 ^ v.ws := by
  have hdvd : 2 ^ v.ws ∣ 2 ^ 32 := Nat.pow_dvd_pow 2 (ws_le v)
  rw [keyWord, toNat_trunc, BitVec.toNat_setWidth, BitVec.toNat_ushiftRight, Nat.mod_mod_of_dvd _ hdvd]

/-- The low `k + 1` chunks of a key are its low `k` chunks with word `k` above them. -/
theorem low_chunks_succ (v : Variant) (key : KeyBits) (k : Nat) :
    key.toNat % 2 ^ ((k + 1) * v.ws) =
      key.toNat % 2 ^ (k * v.ws) ||| (keyWord v key k).toNat <<< (k * v.ws) := by
  have hlow : key.toNat % 2 ^ (k * v.ws) < 2 ^ (k * v.ws) := Nat.mod_lt _ (Nat.two_pow_pos _)
  calc key.toNat % 2 ^ ((k + 1) * v.ws)
      = key.toNat % 2 ^ (k * v.ws) + 2 ^ (k * v.ws) * (keyWord v key k).toNat := by
        rw [toNat_keyWord, Nat.shiftRight_eq_div_pow, Nat.succ_mul, Nat.pow_add, Nat.mod_mul]
    _ = (keyWord v key k).toNat <<< (k * v.ws) + key.toNat % 2 ^ (k * v.ws) := by
        rw [Nat.shiftLeft_eq, Nat.mul_comm (2 ^ _), Nat.add_comm]
    _ = key.toNat % 2 ^ (k * v.ws) ||| (keyWord v key k).toNat <<< (k * v.ws) := by
        rw [Nat.shiftLeft_add_eq_or_of_lt hlow, Nat.or_comm]

/-- A key of the variant is its four low chunks: `low_chunks_succ` takes off words 3, 2, 1 and 0 in turn. -/
theorem key_eq_or_keyWords (v : Variant) (key : KeyBits) (hkey : key.toNat < 2 ^ v.ks) :
    key.toNat = (keyWord v key 0).toNat ||| ((keyWord v key 1).toNat <<< v.ws) |||
      ((keyWord v key 2).toNat <<< (2 * v.ws)) ||| ((keyWord v key 3).toNat <<< (3 * v.ws)) := by
  rw [ks_eq] at hkey
  have hlow : key.toNat % 2 ^ (4 * v.ws) = key.toNat := Nat.mod_eq_of_lt hkey
  rw [low_chunks_succ v key 3, low_chunks_succ v key 2, low_chunks_succ v key 1, low_chunks_succ v key 0] at hlow
  simpa [Nat.mod_one] using hlow.symm

/-- Settles O14: word by word by `toNat_keyWord`, the whole key by `key_eq_or_keyWords`; the examples are evaluated. -/
theorem keyLoadsLeastSignificantWordFirst : Obligations.KeyLoadsLeastSignificantWordFirst :=
  ⟨fun v key => ⟨fun k _ => toNat_keyWord v key k, rfl, key_eq_or_keyWords v key⟩, by decide, by decide⟩

end Sys2Proof.Machine
end

section
/-! PROOFS. The cipher engine (43_cipher_engine.md R164): one round and its inverse undo each other, so do the rounds, and a
block of the variant is its two halves. -/

namespace Sys2Proof.Machine

/-! ### Widths: what fits in `ws` bits stays there (R126, R145) -/

/-- For every word: both terms of `f` are cut by a rotation, which truncates. -/
theorem f_fits (v : Variant) (x : Word) : Fits v (f v x) := by
  have hand : Fits v (x &&& rotl v x 5) := by
    rw [Fits, BitVec.toNat_and]
    exact lt_of_le_of_lt Nat.and_le_right (trunc_lt v _)
  exact xor_lt hand (trunc_lt v _)

theorem fwd_fits {v : Variant} {h : Halves} {k : Word} (hh : HalvesFit v h) (hk : Fits v k) : HalvesFit v (fwd v h k) :=
  ⟨xor_lt (xor_lt hh.2 (f_fits v h.left)) hk, hh.1⟩

theorem inv_fits {v : Variant} {h : Halves} {k : Word} (hh : HalvesFit v h) (hk : Fits v k) : HalvesFit v (inv v h k) :=
  ⟨hh.2, xor_lt (xor_lt hh.1 (f_fits v h.right)) hk⟩

theorem encRounds_fits {v : Variant} {rk : Nat → Word} (hrk : ∀ n, Fits v (rk n)) {h : Halves} (hh : HalvesFit v h) (n : Nat) :
    HalvesFit v (encRounds v rk n h) := by
  induction n with
  | zero => exact hh
  | succ n ih => exact fwd_fits ih (hrk n)

theorem decRounds_fits {v : Variant} {rk : Nat → Word} (hrk : ∀ n, Fits v (rk n)) {h : Halves} (hh : HalvesFit v h) (n : Nat) :
    HalvesFit v (decRounds v rk n h) := by
  induction n generalizing h with
  | zero => exact hh
  | succ n ih => exact ih (inv_fits hh (hrk n))

theorem roundConst_fits (v : Variant) (z : Bool) : Fits v (roundConst v z) := by
  cases v <;> cases z <;> decide

theorem ksRound_fits {v : Variant} {t : KeyReg} (ht : KeyRegFits v t) (z : Bool) : KeyRegFits v (ksRound v z t) := by
  obtain ⟨h0, h1, h2, h3⟩ := ht
  exact ⟨h1, h2, h3, xor_lt (xor_lt h0 (f_fits v t.t1)) (roundConst_fits v z)⟩

theorem keyRegBefore_fits (v : Variant) (key : KeyBits) (n : Nat) : KeyRegFits v (keyRegBefore v key n) := by
  induction n with
  | zero => exact ⟨trunc_lt v _, trunc_lt v _, trunc_lt v _, trunc_lt v _⟩
  | succ n ih => exact ksRound_fits ih (seqBit v n)

theorem keySchedule_fits (v : Variant) (key : KeyBits) (n : Nat) : Fits v (keySchedule v key n) :=
  (keyRegBefore_fits v key n).1

/-! ### A block and its halves (R165) -/

theorem split_fits {v : Variant} {p : Block} (hp : p.toNat < 2 ^ v.bs) : HalvesFit v (split v p) := by
  refine ⟨(lt_ws_iff v _).2 fun i hi => ?_, trunc_lt v _⟩
  have hbit : p.getLsbD (v.ws + i) = false :=
    (toNat_lt_two_pow_iff p v.bs).1 hp _ (by rw [bs_eq]; omega)
  simp [split, getLsbD_upperHalf, hbit]

theorem join_lt {v : Variant} {h : Halves} (hh : HalvesFit v h) : (join v h).toNat < 2 ^ v.bs := by
  refine (toNat_lt_two_pow_iff _ _).2 fun i hi => ?_
  have hbs := bs_eq v
  have hbit : h.left.getLsbD (i - v.ws) = false := (lt_ws_iff v _).1 hh.1 _ (by omega)
  rw [getLsbD_join v h hh.1 hh.2, if_neg (by omega), hbit]

theorem join_split {v : Variant} {p : Block} (hp : p.toNat < 2 ^ v.bs) : join v (split v p) = p := by
  have hws := ws_le v
  have hbs := bs_eq v
  obtain ⟨hl, hr⟩ := split_fits hp
  apply BitVec.eq_of_getLsbD_eq
  intro i _
  rw [getLsbD_join v _ hl hr, split, getLsbD_upperHalf, getLsbD_lowerHalf]
  by_cases hlow : i < v.ws
  · simp [hlow]
  · rw [if_neg hlow, show v.ws + (i - v.ws) = i by omega]
    by_cases hmid : i < v.bs
    · simp [show i - v.ws < 32 by omega]
    · simp [(toNat_lt_two_pow_iff p v.bs).1 hp i (by omega)]

theorem split_join {v : Variant} {h : Halves} (hh : HalvesFit v h) : split v (join v h) = h := by
  obtain ⟨hl, hr⟩ := hh
  have hleft : upperHalf v (join v h) = h.left := by
    apply BitVec.eq_of_getLsbD_eq
    intro i hi
    rw [getLsbD_upperHalf, getLsbD_join v h hl hr]
    simp [hi]
  have hright : lowerHalf v (join v h) = h.right := by
    apply BitVec.eq_of_getLsbD_eq
    intro i _
    rw [getLsbD_lowerHalf, getLsbD_join v h hl hr]
    by_cases hlow : i < v.ws
    · simp [hlow]
    · simp [hlow, (lt_ws_iff v _).1 hr i (by omega)]
  rw [split, hleft, hright]

/-! ### The rounds undo each other (R125, R164) -/

theorem xor_xor_xor_xor_cancel (x y k : Word) : x ^^^ y ^^^ k ^^^ y ^^^ k = x := by
  rw [BitVec.xor_assoc _ y k, BitVec.xor_assoc x y k, BitVec.xor_assoc, BitVec.xor_self, BitVec.xor_zero]

/-- R125: the half that `fwd` moves unchanged is the one both rounds feed to `f`, so the two added terms cancel. -/
@[simp] theorem inv_fwd (v : Variant) (h : Halves) (k : Word) : inv v (fwd v h k) k = h := by
  simp only [inv, fwd, xor_xor_xor_xor_cancel]

@[simp] theorem fwd_inv (v : Variant) (h : Halves) (k : Word) : fwd v (inv v h k) k = h := by
  simp only [inv, fwd, xor_xor_xor_xor_cancel]

@[simp] theorem decRounds_encRounds (v : Variant) (rk : Nat → Word) (n : Nat) (h : Halves) :
    decRounds v rk n (encRounds v rk n h) = h := by
  induction n with
  | zero => rfl
  | succ n ih => rw [encRounds, decRounds, inv_fwd, ih]

@[simp] theorem encRounds_decRounds (v : Variant) (rk : Nat → Word) (n : Nat) (h : Halves) :
    encRounds v rk n (decRounds v rk n h) = h := by
  induction n generalizing h with
  | zero => rfl
  | succ n ih => rw [encRounds, decRounds, ih, fwd_inv]

/-! ### Encrypt and Decrypt -/

section
variable {v : Variant} {rk : Nat → Word} (hrk : ∀ n, Fits v (rk n)) {p : Block} (hp : p.toNat < 2 ^ v.bs)
include hrk hp

theorem encrypt_lt : (encrypt v rk p).toNat < 2 ^ v.bs :=
  join_lt (encRounds_fits hrk (split_fits hp) v.rc)

theorem decrypt_lt : (decrypt v rk p).toNat < 2 ^ v.bs :=
  join_lt (decRounds_fits hrk (split_fits hp) v.rc)

theorem decrypt_encrypt : decrypt v rk (encrypt v rk p) = p := by
  rw [decrypt, encrypt, split_join (encRounds_fits hrk (split_fits hp) v.rc), decRounds_encRounds, join_split hp]

theorem encrypt_decrypt : encrypt v rk (decrypt v rk p) = p := by
  rw [encrypt, decrypt, split_join (decRounds_fits hrk (split_fits hp) v.rc), encRounds_decRounds, join_split hp]

end

/-- Settles O17: the round keys of a schedule fit, so the two functions keep the blocks of the variant and undo each other
there, and a map with a two-sided inverse is a bijection. -/
theorem decryptAndEncryptAreInverse : Obligations.DecryptAndEncryptAreInverse := by
  intro v key
  have hrk := keySchedule_fits v key
  refine ⟨fun p hp => ⟨decrypt_encrypt hrk hp, encrypt_decrypt hrk hp, encrypt_lt hrk hp, decrypt_lt hrk hp⟩, ?_⟩
  exact Set.InvOn.bijOn (f' := decrypt v (keySchedule v key))
    ⟨fun p hp => decrypt_encrypt hrk hp, fun p hp => encrypt_decrypt hrk hp⟩
    (fun p hp => encrypt_lt hrk hp) (fun p hp => decrypt_lt hrk hp)

end Sys2Proof.Machine
end

section
/-! PROOFS. The fault-attack engine as functions (44_fault_attack_engine.md R182 to R196): the two rounds after the fault, what
they let through of the flipped bit, and the bits of the last round key that the trials of a session write. -/

namespace Sys2Proof.Machine

/-! ### Bit numbers modulo the word size -/

/-- Within one word size of the bits of the word the index wraps around at most once. -/
theorem bitIndex_cases (v : Variant) {k : Int} (hlo : -v.ws ≤ k) (hhi : k < v.ws) :
    (0 ≤ k ∧ (bitIndex v k : Int) = k) ∨ (k < 0 ∧ (bitIndex v k : Int) = k + v.ws) := by
  unfold bitIndex
  rcases lt_or_ge k 0 with h | h
  · rw [← Int.add_emod_right, Int.emod_eq_of_lt (by omega) (by omega)]
    omega
  · rw [Int.emod_eq_of_lt h hhi]
    omega

/-- Steps taken one after the other add up, wherever the first one wraps around. -/
theorem bitIndex_bitIndex_sub (v : Variant) (k : Int) (r : Int) :
    bitIndex v ((bitIndex v k : Int) - r) = bitIndex v (k - r) := by
  have hpos := ws_ge v
  have hnonneg : 0 ≤ k % (v.ws : Int) := Int.emod_nonneg k (by omega)
  unfold bitIndex
  rw [Int.toNat_of_nonneg hnonneg, Int.emod_sub_emod]

theorem bitIndex_add_five_sub_five (v : Variant) {j : Nat} (hj : j + 5 < v.ws) :
    bitIndex v (((j + 5 : Nat) : Int) - 5) = j := by
  rw [Nat.cast_add, Nat.cast_ofNat, Int.add_sub_cancel, bitIndex_of_lt v (by omega)]

theorem bitIndex_add_five_sub_one (v : Variant) {j : Nat} (hj : j + 5 < v.ws) :
    bitIndex v (((j + 5 : Nat) : Int) - 1) = j + 4 := by
  rw [show ((j + 5 : Nat) : Int) - 1 = ((j + 4 : Nat) : Int) by omega, bitIndex_of_lt v (by omega)]

/-! ### The bits of the round function (R120, R122) -/

theorem getLsbD_rotl {v : Variant} {x : Word} (hx : Fits v x) {r i : Nat} (hr : 0 < r) (hrw : r < v.ws) (hi : i < v.ws) :
    (rotl v x r).getLsbD i = x.getLsbD (bitIndex v ((i : Int) - r)) := by
  have hws := ws_le v
  have h32 : i < 32 := by omega
  rw [rotl, getLsbD_trunc, BitVec.getLsbD_or, BitVec.getLsbD_shiftLeft, BitVec.getLsbD_ushiftRight]
  rcases bitIndex_cases v (k := (i : Int) - r) (by omega) (by omega) with ⟨h, hidx⟩ | ⟨h, hidx⟩
  · have hhigh : x.getLsbD (v.ws - r + i) = false := (lt_ws_iff v x).1 hx _ (by omega)
    rw [show bitIndex v ((i : Int) - r) = i - r by omega]
    simp [hi, h32, hhigh, show ¬ i < r by omega]
  · rw [show bitIndex v ((i : Int) - r) = v.ws - r + i by omega]
    simp [hi, show i < r by omega]

theorem getLsbD_f {v : Variant} {x : Word} (hx : Fits v x) {i : Nat} (hi : i < v.ws) :
    (f v x).getLsbD i =
      ((x.getLsbD i && x.getLsbD (bitIndex v ((i : Int) - 5))) ^^ x.getLsbD (bitIndex v ((i : Int) - 1))) := by
  have hws := ws_ge v
  have h5 := getLsbD_rotl hx (r := 5) (by omega) (by omega) hi
  have h1 := getLsbD_rotl hx (r := 1) (by omega) (by omega) hi
  rw [f, BitVec.getLsbD_xor, BitVec.getLsbD_and, h5, h1]
  rfl

/-! ### One flipped bit through the round function -/

theorem getLsbD_flip_self (x : Word) {j : Nat} (hj : j < 32) : (x ^^^ BitVec.twoPow 32 j).getLsbD j = !x.getLsbD j := by
  rw [BitVec.getLsbD_xor, BitVec.getLsbD_twoPow]
  simp [hj]

theorem getLsbD_flip_of_ne (x : Word) {i j : Nat} (hij : i ≠ j) : (x ^^^ BitVec.twoPow 32 j).getLsbD i = x.getLsbD i := by
  rw [BitVec.getLsbD_xor, BitVec.getLsbD_twoPow]
  simp [hij.symm]

/-- What a flip of `a` does to `a & b`, beside a term `c` that it leaves alone. -/
theorem and_xor_not_and_xor : ∀ a b c : Bool, (((a && b) ^^ c) ^^ ((!a && b) ^^ c)) = b := by decide

section
variable {v : Variant} {x : Word} (hx : Fits v x) {j : Nat}
include hx

theorem flip_fits (hj : j < v.ws) : Fits v (x ^^^ BitVec.twoPow 32 j) := by
  refine xor_lt hx ((lt_ws_iff v _).2 fun i hi => ?_)
  simp [BitVec.getLsbD_twoPow]
  omega

/-- At the flipped bit itself the two values of `f` differ by the bit five below: the term `x[j] & x[j-5]`. -/
theorem getLsbD_f_diff_flipped (hj : j < v.ws) :
    (f v x ^^^ f v (x ^^^ BitVec.twoPow 32 j)).getLsbD j = x.getLsbD (bitIndex v ((j : Int) - 5)) := by
  have hge := ws_ge v
  have hle := ws_le v
  have h5 := bitIndex_cases v (k := (j : Int) - 5) (by omega) (by omega)
  have h1 := bitIndex_cases v (k := (j : Int) - 1) (by omega) (by omega)
  rw [BitVec.getLsbD_xor, getLsbD_f hx hj, getLsbD_f (flip_fits hx hj) hj, getLsbD_flip_self x (by omega),
    getLsbD_flip_of_ne x (by omega), getLsbD_flip_of_ne x (by omega), and_xor_not_and_xor]

/-- Five above the flipped bit they differ by the bit there: the term `x[j+5] & x[j]`. -/
theorem getLsbD_f_diff_five_above (hj : j + 5 < v.ws) :
    (f v x ^^^ f v (x ^^^ BitVec.twoPow 32 j)).getLsbD (j + 5) = x.getLsbD (j + 5) := by
  have hle := ws_le v
  rw [BitVec.getLsbD_xor, getLsbD_f hx hj, getLsbD_f (flip_fits hx (by omega)) hj, bitIndex_add_five_sub_five v hj,
    bitIndex_add_five_sub_one v hj, getLsbD_flip_self x (by omega), getLsbD_flip_of_ne x (by omega),
    getLsbD_flip_of_ne x (by omega), Bool.and_comm, Bool.and_comm _ (!_), and_xor_not_and_xor]

end

/-- Of two sums with the same outer terms only the inner difference is left. -/
theorem xor_xor_xor_cancel_outer (x y y' k : Word) : (x ^^^ y ^^^ k) ^^^ (x ^^^ y' ^^^ k) = y ^^^ y' := by
  calc (x ^^^ y ^^^ k) ^^^ (x ^^^ y' ^^^ k)
      = (x ^^^ x) ^^^ (k ^^^ k) ^^^ (y ^^^ y') := by ac_rfl
    _ = y ^^^ y' := by simp

/-! ### The two rounds from the fault on (R182, R183) -/

theorem rc_eq_faultRound (v : Variant) : v.rc = v.faultRound + 2 := by cases v <;> rfl

/-- The halves before the faulted round, of the genuine encryption and of every trial alike. -/
def beforeFault (v : Variant) (rk : Nat → Word) (p : Block) : Halves := encRounds v rk v.faultRound (split v p)

theorem faultedRounds_eq_encRounds (v : Variant) (rk : Nat → Word) (j : Nat) (h : Halves) {n : Nat} (hn : n ≤ v.faultRound) :
    faultedRounds v rk j n h = encRounds v rk n h := by
  induction n with
  | zero => rfl
  | succ n ih =>
    have hround : n ≠ v.faultRound := by omega
    rw [faultedRounds, encRounds, ih (by omega), faultHook, if_neg hround]

theorem encRounds_rc (v : Variant) (rk : Nat → Word) (p : Block) :
    encRounds v rk v.rc (split v p) =
      fwd v (fwd v (beforeFault v rk p) (rk v.faultRound)) (rk (v.rc - 1)) := by
  rw [rc_eq_faultRound]
  rfl

theorem faultedRounds_rc (v : Variant) (rk : Nat → Word) (j : Nat) (p : Block) :
    faultedRounds v rk j v.rc (split v p) =
      fwd v (fwd v (faultHook v v.faultRound j (beforeFault v rk p)) (rk v.faultRound)) (rk (v.rc - 1)) := by
  have hlast : v.faultRound + 1 ≠ v.faultRound := by omega
  rw [rc_eq_faultRound, faultedRounds, faultedRounds, faultedRounds_eq_encRounds v rk j _ le_rfl, beforeFault,
    faultHook, if_neg hlast]
  rfl

theorem faultHook_fits {v : Variant} {h : Halves} (hh : HalvesFit v h) {j : Nat} (hj : j < v.ws) (i : Nat) :
    HalvesFit v (faultHook v i j h) := by
  unfold faultHook
  split_ifs
  · exact ⟨flip_fits hh.1 hj, hh.2⟩
  · exact hh

/-! ### One trial (R187, R194) -/

section
variable {v : Variant} {rk : Nat → Word} (hrk : ∀ n, Fits v (rk n)) {p : Block} (hp : p.toNat < 2 ^ v.bs)
include hrk hp

theorem beforeFault_fits : HalvesFit v (beforeFault v rk p) := encRounds_fits hrk (split_fits hp) _

theorem split_encrypt :
    split v (encrypt v rk p) = fwd v (fwd v (beforeFault v rk p) (rk v.faultRound)) (rk (v.rc - 1)) := by
  rw [encrypt, split_join (encRounds_fits hrk (split_fits hp) _), encRounds_rc]

theorem split_faultedEncrypt {j : Nat} (hj : j < v.ws) :
    split v (faultedEncrypt v rk j p) =
      fwd v (fwd v (faultHook v v.faultRound j (beforeFault v rk p)) (rk v.faultRound)) (rk (v.rc - 1)) := by
  have hfit := faultHook_fits (beforeFault_fits hrk hp) hj v.faultRound
  rw [faultedEncrypt, faultedRounds_rc, split_join (fwd_fits (fwd_fits hfit (hrk _)) (hrk _))]

/-- The comparator word is the difference of `f` under the flipped bit: the other terms of the right halves cancel. -/
theorem comparator_encrypt {j : Nat} (hj : j < v.ws) :
    comparator v (encrypt v rk p) (faultedEncrypt v rk j p) =
      f v (beforeFault v rk p).left ^^^ f v ((beforeFault v rk p).left ^^^ BitVec.twoPow 32 j) := by
  have hc : lowerHalf v (encrypt v rk p) = _ := congrArg Halves.right (split_encrypt hrk hp)
  have hcf : lowerHalf v (faultedEncrypt v rk j p) = _ := congrArg Halves.right (split_faultedEncrypt hrk hp hj)
  rw [comparator, hc, hcf, faultHook, if_pos rfl]
  exact xor_xor_xor_cancel_outer _ _ _ _

/-- The last round solved for its key, `k = L ^ f(Y) ^ X`: `L` is the left half before the fault, `X` and `Y` are the halves of
the ciphertext. -/
theorem lastRoundKey_eq :
    rk (v.rc - 1) = (beforeFault v rk p).left ^^^ f v (lowerHalf v (encrypt v rk p)) ^^^ upperHalf v (encrypt v rk p) := by
  have hx : upperHalf v (encrypt v rk p) = _ := congrArg Halves.left (split_encrypt hrk hp)
  have hy : lowerHalf v (encrypt v rk p) = _ := congrArg Halves.right (split_encrypt hrk hp)
  rw [hx, hy]
  simp only [fwd]
  rw [← BitVec.xor_assoc, BitVec.xor_self, BitVec.zero_xor]

theorem getLsbD_lastRoundKey {i : Nat} (hi : i < v.ws) :
    (rk (v.rc - 1)).getLsbD i =
      ((beforeFault v rk p).left.getLsbD i
        ^^ ((lowerHalf v (encrypt v rk p)).getLsbD i && (lowerHalf v (encrypt v rk p)).getLsbD (bitIndex v ((i : Int) - 5)))
        ^^ (lowerHalf v (encrypt v rk p)).getLsbD (bitIndex v ((i : Int) - 1))
        ^^ (upperHalf v (encrypt v rk p)).getLsbD i) := by
  have hf := getLsbD_f (v := v) (x := lowerHalf v (encrypt v rk p)) (trunc_lt v _) hi
  rw [lastRoundKey_eq hrk hp, BitVec.getLsbD_xor, BitVec.getLsbD_xor, hf, ← Bool.xor_assoc]

/-- The heart of R194: the genuine ciphertext and a trial's faulted one give the two bits `a` and `b` of the last round key. -/
theorem recoverTrial_eq_lastRoundKey {j : Nat} (hj : j + 5 < v.ws) :
    recoverTrial v j (encrypt v rk p) (faultedEncrypt v rk j p) =
      { ka := (rk (v.rc - 1)).getLsbD (targetA v j), kb := (rk (v.rc - 1)).getLsbD (targetB j) } := by
  have hj' : j < v.ws := by omega
  have hleft := (beforeFault_fits hrk hp).1
  have ha := getLsbD_lastRoundKey hrk hp (bitIndex_lt v ((j : Int) - 5))
  have hb := getLsbD_lastRoundKey hrk hp hj
  rw [bitIndex_bitIndex_sub, bitIndex_bitIndex_sub, Int.sub_sub, Int.sub_sub] at ha
  rw [bitIndex_add_five_sub_five v hj, bitIndex_add_five_sub_one v hj] at hb
  simp only [recoverTrial, comparator_encrypt hrk hp hj', targetA, targetB, getLsbD_f_diff_flipped hleft hj',
    getLsbD_f_diff_five_above hleft hj, ha, hb]
  rfl

end

/-! ### The session (R190 to R195) -/

theorem targetA_lt (v : Variant) (j : Nat) : targetA v j < v.ws := bitIndex_lt v _

/-- A trial marks its two key bits and no others. -/
theorem getLsbD_accv_recordTrial (v : Variant) (j : Nat) (c cf : Block) (m : KeyBitMap) {k : Nat} (hk : k < v.ws) :
    (recordTrial v j c cf m).accv.getLsbD k = (decide (k = targetA v j ∨ k = targetB j) || m.accv.getLsbD k) := by
  have hws := ws_le v
  simp only [recordTrial, KeyBitMap.write, getLsbD_setBit]
  grind

/-- The value of key bit `k` after trial `j`: where the two writes meet, the second replaces the first (R190). -/
theorem getLsbD_acc_recordTrial (v : Variant) (j : Nat) (c cf : Block) (m : KeyBitMap) {k : Nat} (hk : k < v.ws) :
    (recordTrial v j c cf m).acc.getLsbD k =
      if k = targetB j then (recoverTrial v j c cf).kb
      else if k = targetA v j then (recoverTrial v j c cf).ka
      else m.acc.getLsbD k := by
  have hws := ws_le v
  simp only [recordTrial, KeyBitMap.write, getLsbD_setBit]
  grind

/-- The key bits that trials 0 to n-1 write. -/
theorem getLsbD_accv_sessionMap (v : Variant) (rk : Nat → Word) (p c : Block) (n : Nat) {k : Nat} (hk : k < v.ws) :
    (sessionMap v rk p c n).accv.getLsbD k = true ↔ ∃ j, j < n ∧ (k = targetA v j ∨ k = targetB j) := by
  induction n with
  | zero => simp [sessionMap]
  | succ n ih =>
    rw [sessionMap, getLsbD_accv_recordTrial v _ _ _ _ hk, Bool.or_eq_true, ih, decide_eq_true_eq]
    constructor
    · rintro (h | ⟨j, hj, h⟩)
      · exact ⟨n, by omega, h⟩
      · exact ⟨j, by omega, h⟩
    · rintro ⟨j, hj, h⟩
      rcases Nat.lt_succ_iff_lt_or_eq.1 hj with hlt | rfl
      · exact .inr ⟨j, hlt, h⟩
      · exact .inl h

/-- R195: every key bit is written. Bits 0 to 4 and the upper five are `j - 5` for some trial, those between are `j + 5`. -/
theorem exists_trial_target (v : Variant) {k : Nat} (hk : k < v.ws) :
    ∃ j, j < v.ntrials ∧ (k = targetA v j ∨ k = targetB j) := by
  have hge := ws_ge v
  have htrials : 10 ≤ v.ntrials ∧ v.ws ≤ v.ntrials + 10 := by cases v <;> decide
  have hA (j : Nat) (hj : j < v.ws) := bitIndex_cases v (k := (j : Int) - 5) (by omega) (by omega)
  simp only [targetA, targetB]
  by_cases hlow : k < 5
  · have hwrap := hA (k + 5) (by omega)
    exact ⟨k + 5, by omega, .inl (by omega)⟩
  · by_cases hmid : k + 5 < v.ws
    · exact ⟨k - 5, by omega, .inr (by omega)⟩
    · have hwrap := hA (k + 5 - v.ws) (by omega)
      exact ⟨k + 5 - v.ws, by omega, .inl (by omega)⟩

/-- With the genuine ciphertext, a key bit that some trial has written holds the bit of the last round key: every write to it
wrote that bit (R196). -/
theorem getLsbD_acc_sessionMap {v : Variant} {rk : Nat → Word} (hrk : ∀ n, Fits v (rk n)) {p : Block} (hp : p.toNat < 2 ^ v.bs)
    {k : Nat} (hk : k < v.ws) {n : Nat} (hn : n ≤ v.ntrials)
    (hset : (sessionMap v rk p (encrypt v rk p) n).accv.getLsbD k = true) :
    (sessionMap v rk p (encrypt v rk p) n).acc.getLsbD k = (rk (v.rc - 1)).getLsbD k := by
  induction n with
  | zero => simp [sessionMap] at hset
  | succ n ih =>
    rw [sessionMap, getLsbD_accv_recordTrial v _ _ _ _ hk] at hset
    rw [sessionMap, getLsbD_acc_recordTrial v _ _ _ _ hk, recoverTrial_eq_lastRoundKey hrk hp (ntrials_add_five_lt v hn)]
    split_ifs with hb ha
    · rw [hb]
    · rw [ha]
    · exact ih (by omega) (by simpa [ha, hb] using hset)

/-- Outside the word no trial writes. -/
theorem acc_sessionMap_fits (v : Variant) (rk : Nat → Word) (p c : Block) {n : Nat} (hn : n ≤ v.ntrials) :
    Fits v (sessionMap v rk p c n).acc := by
  induction n with
  | zero => simp [sessionMap]
  | succ n ih =>
    have hA := targetA_lt v n
    have hB := ntrials_add_five_lt v hn
    refine (lt_ws_iff v _).2 fun i hi => ?_
    have hold := (lt_ws_iff v _).1 (ih (by omega)) i hi
    simp only [sessionMap, recordTrial, KeyBitMap.write, getLsbD_setBit, targetB, hold]
    rw [if_neg (by omega), if_neg (by omega)]

/-- R194 of the session as a function: below `ws` every bit is written, with the key's value; above, both words are zero. -/
theorem attackSession_encrypt (v : Variant) (key : KeyBits) {p : Block} (hp : p.toNat < 2 ^ v.bs) :
    attackSession v p (encrypt v (keySchedule v key) p) key = keySchedule v key (v.rc - 1) := by
  have hrk := keySchedule_fits v key
  have hfit := acc_sessionMap_fits v (keySchedule v key) p (encrypt v (keySchedule v key) p) le_rfl
  apply BitVec.eq_of_getLsbD_eq
  intro k _
  by_cases hk : k < v.ws
  · exact getLsbD_acc_sessionMap hrk hp hk le_rfl
      ((getLsbD_accv_sessionMap v _ _ _ _ hk).2 (exists_trial_target v hk))
  · rw [attackSession, (lt_ws_iff v _).1 hfit k (by omega), (lt_ws_iff v _).1 (hrk _) k (by omega)]

end Sys2Proof.Machine
end

section
/-! PROOFS. `ATK` from command issue to command end (44_fault_attack_engine.md R193, R194; 45_command_sequencer.md R216 to R223):
every micro-step after CHECK keeps the command on course (`OnCourse`) and takes one off the micro-steps still to come. -/

namespace Sys2Proof.Machine

/-! ### Decoding the issued word, and the counters -/

theorem decode_encode (i : Instr) : decode (encode i) = some i := by
  have hfields : Sys2Proof.Laws.FormatC.Statement i := by
    cases i with
    | enc bs ks => exact Sys2Proof.Laws.FormatC.enc bs ks
    | dec bs ks => exact Sys2Proof.Laws.FormatC.dec bs ks
    | atk bs ks => exact Sys2Proof.Laws.FormatC.atk bs ks
    | kexp bs ks => exact Sys2Proof.Laws.FormatC.kexp bs ks
  obtain ⟨hrsv, hop, hbs, hks⟩ := hfields
  cases i <;> simp [decode, decodeWord, Decoded.toOption, hrsv, hop, hbs, hks, Instr.op, Instr.bs, Instr.ks]

/-- A round index that the register `I` holds is read back unchanged. -/
theorem toNat_roundIndex (v : Variant) {k : Nat} (hk : k < v.rc) : (BitVec.ofNat 6 k).toNat = k := by
  have hrc := rc_le_44 v
  rw [BitVec.toNat_ofNat, Nat.mod_eq_of_lt (by omega)]

/-- So is a trial index in `J`. -/
theorem toNat_trialIndex (v : Variant) {k : Nat} (hk : k < v.ntrials) : (BitVec.ofNat 5 k).toNat = k := by
  have htrials := ntrials_le v
  rw [BitVec.toNat_ofNat, Nat.mod_eq_of_lt (by omega)]

/-- R107: the window gives the bits of the sequence, round by round; evaluated for the three sequences there are. -/
theorem lfsrOut_lfsrWindow (v : Variant) {n : Nat} (hn : n < v.rc) : lfsrOut (lfsrWindow v n) = seqBit v n := by
  have hall : ∀ m, m < v.rc → lfsrOut (lfsrWindow v m) = seqBit v m := by cases v <;> decide +kernel
  exact hall n hn

/-! ### The start of a trial -/

/-- Start trial `j`: the common part of the dispatch of `ATK` and of the end of an earlier trial (R217, R221), written flat. -/
def startTrialAt (v : Variant) (j : Nat) (s : State) : State :=
  { s with l := upperHalf v s.din, r := lowerHalf v s.din, i := 0#6, j := BitVec.ofNat 5 j, phase := .aenc }

theorem startTrial_eq (v : Variant) (j : Nat) (s : State) :
    { startTrial v s with j := BitVec.ofNat 5 j } = startTrialAt v j s := rfl

theorem dispatchAtk_eq (v : Variant) (s : State) :
    dispatchAtk v s = startTrialAt v 0 (s.withKeyBitMap { acc := 0#32, accv := 0#32 }) := rfl

@[simp] theorem startTrialAt_cmd (v : Variant) (j : Nat) (s : State) : (startTrialAt v j s).cmd = s.cmd := rfl
@[simp] theorem startTrialAt_status (v : Variant) (j : Nat) (s : State) : (startTrialAt v j s).status = s.status := rfl
@[simp] theorem startTrialAt_key (v : Variant) (j : Nat) (s : State) : (startTrialAt v j s).key = s.key := rfl
@[simp] theorem startTrialAt_din (v : Variant) (j : Nat) (s : State) : (startTrialAt v j s).din = s.din := rfl
@[simp] theorem startTrialAt_gct (v : Variant) (j : Nat) (s : State) : (startTrialAt v j s).gct = s.gct := rfl
@[simp] theorem startTrialAt_phase (v : Variant) (j : Nat) (s : State) : (startTrialAt v j s).phase = .aenc := rfl
@[simp] theorem startTrialAt_i (v : Variant) (j : Nat) (s : State) : (startTrialAt v j s).i = 0#6 := rfl
@[simp] theorem startTrialAt_j (v : Variant) (j : Nat) (s : State) : (startTrialAt v j s).j = BitVec.ofNat 5 j := rfl
@[simp] theorem rkAt_startTrialAt (v : Variant) (j : Nat) (s : State) (k : Nat) : (startTrialAt v j s).rkAt k = s.rkAt k := rfl
@[simp] theorem halves_startTrialAt (v : Variant) (j : Nat) (s : State) : (startTrialAt v j s).halves = split v s.din := rfl
@[simp] theorem keyBitMap_startTrialAt (v : Variant) (j : Nat) (s : State) : (startTrialAt v j s).keyBitMap = s.keyBitMap := rfl

/-! ### A command on its way -/

/-- The operands and what the host sees of the running command are those at its issue. -/
structure SameCommand (s₀ s : State) : Prop where
  cmd : s.cmd = s₀.cmd
  status : s.status = s₀.status
  key : s.key = s₀.key
  din : s.din = s₀.din
  gct : s.gct = s₀.gct

/-- The command `i`, issued in the state `s₀`, has passed CHECK and is on course in `s`. -/
structure UnderWay (i : Instr) (v : Variant) (s₀ s : State) : Prop where
  same : SameCommand s₀ s
  phase : passesThrough i s.phase = true
  counters : CountersInRange v s
  course : OnCourse v s

/-- How many micro-steps an `ATK` past CHECK still takes (R223). -/
def atkStepsLeft (v : Variant) (s : State) : Nat :=
  match s.phase with
  | .ks => v.rc - s.i.toNat + v.ntrials * (v.rc + 1)
  | .aenc => v.rc - s.i.toNat + 1 + (v.ntrials - (s.j.toNat + 1)) * (v.rc + 1)
  | .arec => 1 + (v.ntrials - (s.j.toNat + 1)) * (v.rc + 1)
  | _ => 0

/-- What an `ATK` issued in the state `s₀` leaves at its end (R193, R201). -/
structure AtkEnded (v : Variant) (s₀ t : State) : Prop where
  status : t.status = Status.ended 0#4
  stored : ∀ k, k < v.rc → t.rkAt k = keySchedule v s₀.key k
  rkout : t.rkout = attackSession v s₀.din s₀.gct s₀.key

/-! ### What one micro-step computes -/

/-- R216: a KS micro-step stores the round key of its round and takes the key register and the window to the next round. -/
theorem ksRoundWrites_onCourse {v : Variant} {s : State} (hp : s.phase = .ks) (hi : s.i.toNat < v.rc) (hc : OnCourse v s) :
    (ksRoundWrites v s).t = keyRegBefore v s.key (s.i.toNat + 1) ∧
    (ksRoundWrites v s).swin = lfsrWindow v (s.i.toNat + 1) ∧
    ∀ k, k < s.i.toNat + 1 → (ksRoundWrites v s).rkAt k = keySchedule v s.key k := by
  simp only [OnCourse, hp] at hc
  obtain ⟨ht, hwin, hstored⟩ := hc
  refine ⟨?_, ?_, fun k hk => ?_⟩
  · simp only [ksRoundWrites, ht, hwin, lfsrOut_lfsrWindow v hi, keyRegBefore]
  · simp only [ksRoundWrites, hwin, lfsrWindow]
  · have hdepth := rc_le v
    have hstore : (ksRoundWrites v s).rkAt k = (s.storeRk s.i.toNat s.t.t0).rkAt k := rfl
    rw [hstore, rkAt_storeRk]
    split_ifs with hik
    · rw [← hik.1, ht, keySchedule]
    · exact hstored k (by omega)

/-- R220: an AENC micro-step is the next round of the trial's faulted encryption. -/
theorem aencRound_onCourse {v : Variant} {s : State} (hp : s.phase = .aenc) (hi : s.i.toNat < v.rc) (hc : OnCourse v s) :
    fwd v (faultHook v s.i.toNat s.j.toNat s.halves) (s.rkAt s.i.toNat) =
      faultedRounds v (keySchedule v s.key) s.j.toNat (s.i.toNat + 1) (split v s.din) := by
  simp only [OnCourse, hp] at hc
  obtain ⟨hstored, hhalves, -⟩ := hc
  rw [hhalves, hstored _ hi, faultedRounds]

/-- R221: an AREC micro-step records the trial. -/
theorem arecRecord_onCourse {v : Variant} {s : State} (hp : s.phase = .arec) (hc : OnCourse v s) :
    recordTrial v s.j.toNat s.gct s.cf s.keyBitMap =
      sessionMap v (keySchedule v s.key) s.din s.gct (s.j.toNat + 1) := by
  simp only [OnCourse, hp] at hc
  obtain ⟨-, hcf, hmap⟩ := hc
  rw [hcf, hmap, sessionMap]

/-! ### The micro-steps of `ATK` -/

/-- A trial starts on course when the trials before it are recorded and the round keys are stored. -/
theorem startTrialAt_underWay {bs ks : BitVec 8} {v : Variant} {s₀ s : State} {j : Nat} (hj : j < v.ntrials)
    (hsame : SameCommand s₀ s) (hstored : ∀ k, k < v.rc → s.rkAt k = keySchedule v s.key k)
    (hmap : s.keyBitMap = sessionMap v (keySchedule v s.key) s.din s.gct j) :
    UnderWay (.atk bs ks) v s₀ (startTrialAt v j s) ∧
      atkStepsLeft v (startTrialAt v j s) = (v.ntrials - j) * (v.rc + 1) := by
  have hrc := rc_ge v
  have htrial := toNat_trialIndex v hj
  obtain ⟨m, hm⟩ : ∃ m, v.ntrials = j + 1 + m := Nat.exists_eq_add_of_le hj
  refine ⟨⟨⟨hsame.cmd, hsame.status, hsame.key, hsame.din, hsame.gct⟩, rfl, ?_, ?_⟩, ?_⟩
  · simp only [CountersInRange, startTrialAt_phase, startTrialAt_i, startTrialAt_j, htrial]
    exact ⟨by simp; omega, hj⟩
  · simp only [OnCourse, startTrialAt_phase, startTrialAt_i, startTrialAt_j, htrial, startTrialAt_key, startTrialAt_din,
      startTrialAt_gct, rkAt_startTrialAt, halves_startTrialAt, keyBitMap_startTrialAt]
    exact ⟨hstored, rfl, hmap⟩
  · simp only [atkStepsLeft, startTrialAt_phase, startTrialAt_i, startTrialAt_j, htrial]
    rw [show v.ntrials - j = m + 1 by omega, show v.ntrials - (j + 1) = m by omega, Nat.succ_mul]
    simp
    omega

section
variable {bs ks : BitVec 8} {v : Variant} {s₀ s : State} (hv : lookupVariant bs ks = some v)
  (h : UnderWay (.atk bs ks) v s₀ s)
include hv h

/-- R216, R217: the last KS micro-step starts the first trial. -/
theorem exec_atk_ks (hp : s.phase = .ks) : ∃ t, exec (.atk bs ks) s = .next t ∧
    UnderWay (.atk bs ks) v s₀ t ∧ atkStepsLeft v s = atkStepsLeft v t + 1 := by
  obtain ⟨hsame, -, hcount, hcourse⟩ := h
  simp only [CountersInRange, hp] at hcount
  have hdepth := rc_le v
  obtain ⟨ht, hwin, hstored⟩ := ksRoundWrites_onCourse hp hcount hcourse
  have hsame' : SameCommand s₀ (ksRoundWrites v s) :=
    ⟨hsame.cmd, hsame.status, hsame.key, hsame.din, hsame.gct⟩
  refine ⟨_, (exec_ks (.atk bs ks) v s hv hp).trans ((ksStep_next_iff _ v s _).2 ⟨by omega, rfl⟩), ?_⟩
  by_cases hmore : s.i.toNat + 1 < v.rc
  · rw [if_pos hmore]
    have hi : ((ksRoundWrites v s).withI (s.i.toNat + 1)).i.toNat = s.i.toNat + 1 := toNat_roundIndex v hmore
    have hp' : ((ksRoundWrites v s).withI (s.i.toNat + 1)).phase = .ks := hp
    refine ⟨⟨⟨hsame'.cmd, hsame'.status, hsame'.key, hsame'.din, hsame'.gct⟩, by rw [hp']; rfl, ?_, ?_⟩, ?_⟩
    · simpa only [CountersInRange, hp', hi] using hmore
    · simp only [OnCourse, hp', hi]
      exact ⟨ht, hwin, hstored⟩
    · simp only [atkStepsLeft, hp, hp', hi]
      omega
  · rw [if_neg hmore]
    have hlast : s.i.toNat + 1 = v.rc := by omega
    have htrials : 0 < v.ntrials := by cases v <;> decide
    obtain ⟨hway, hleft⟩ := startTrialAt_underWay (bs := bs) (ks := ks)
      (s := (ksRoundWrites v s).withKeyBitMap { acc := 0#32, accv := 0#32 }) htrials
      ⟨hsame'.cmd, hsame'.status, hsame'.key, hsame'.din, hsame'.gct⟩ (hlast ▸ hstored) rfl
    refine ⟨hway, ?_⟩
    rw [dispatchOf, dispatchAtk_eq, hleft, Nat.sub_zero]
    simp only [atkStepsLeft, hp]
    omega

/-- R220: the last round of a trial gives its faulted ciphertext. -/
theorem exec_atk_aenc (hp : s.phase = .aenc) : ∃ t, exec (.atk bs ks) s = .next t ∧
    UnderWay (.atk bs ks) v s₀ t ∧ atkStepsLeft v s = atkStepsLeft v t + 1 := by
  obtain ⟨hsame, -, hcount, hcourse⟩ := h
  simp only [CountersInRange, hp] at hcount
  obtain ⟨hi, hj⟩ := hcount
  have hdepth := rc_le v
  have hround := aencRound_onCourse hp hi hcourse
  simp only [OnCourse, hp] at hcourse
  obtain ⟨hstored, -, hmap⟩ := hcourse
  refine ⟨_, (exec_aenc (.atk bs ks) v s hv hp).trans ((aencStep_next_iff v s _).2 ⟨by omega, rfl⟩), ?_⟩
  rw [hround]
  generalize hh : faultedRounds v (keySchedule v s.key) s.j.toNat (s.i.toNat + 1) (split v s.din) = h
  by_cases hmore : s.i.toNat + 1 < v.rc
  · rw [if_pos hmore]
    have hi' : ((s.withHalves h).withI (s.i.toNat + 1)).i.toNat = s.i.toNat + 1 := toNat_roundIndex v hmore
    have hp' : ((s.withHalves h).withI (s.i.toNat + 1)).phase = .aenc := hp
    refine ⟨⟨⟨hsame.cmd, hsame.status, hsame.key, hsame.din, hsame.gct⟩, by rw [hp']; rfl, ?_, ?_⟩, ?_⟩
    · simp only [CountersInRange, hp', hi']
      exact ⟨hmore, hj⟩
    · simp only [OnCourse, hp', hi']
      exact ⟨hstored, hh.symm, hmap⟩
    · simp only [atkStepsLeft, hp, hp', hi', withI_j, withHalves_j]
      omega
  · rw [if_neg hmore]
    have hlast : s.i.toNat + 1 = v.rc := by omega
    refine ⟨⟨⟨hsame.cmd, hsame.status, hsame.key, hsame.din, hsame.gct⟩, rfl, hj, ?_⟩, ?_⟩
    · refine ⟨hstored, ?_, hmap⟩
      rw [← hh, hlast]
      rfl
    · simp only [atkStepsLeft, hp, withHalves_j]
      omega

/-- R221: after the last trial the accumulator is read out and the command ends. -/
theorem exec_atk_arec (hp : s.phase = .arec) : ∃ t, exec (.atk bs ks) s = .next t ∧
    ((UnderWay (.atk bs ks) v s₀ t ∧ atkStepsLeft v s = atkStepsLeft v t + 1) ∨
      (AtkEnded v s₀ t ∧ atkStepsLeft v s = 1)) := by
  obtain ⟨hsame, -, hj, hcourse⟩ := h
  simp only [CountersInRange, hp] at hj
  have hrecord := arecRecord_onCourse hp hcourse
  simp only [OnCourse, hp] at hcourse
  obtain ⟨hstored, -, -⟩ := hcourse
  refine ⟨_, (exec_arec (.atk bs ks) v s hv hp).trans
    ((arecStep_next_iff v s _).2 ⟨ntrials_add_five_lt v hj, rfl⟩), ?_⟩
  rw [hrecord, startTrial_eq]
  by_cases hmore : s.j.toNat + 1 < v.ntrials
  · rw [if_pos hmore]
    obtain ⟨hway, hleft⟩ := startTrialAt_underWay (bs := bs) (ks := ks)
      (s := s.withKeyBitMap (sessionMap v (keySchedule v s.key) s.din s.gct (s.j.toNat + 1))) hmore
      ⟨hsame.cmd, hsame.status, hsame.key, hsame.din, hsame.gct⟩ hstored rfl
    refine .inl ⟨hway, hleft.symm ▸ ?_⟩
    simp only [atkStepsLeft, hp]
    omega
  · rw [if_neg hmore]
    have hlast : s.j.toNat + 1 = v.ntrials := by omega
    refine .inr ⟨⟨rfl, ?_, ?_⟩, ?_⟩
    · exact hsame.key ▸ hstored
    · rw [← hsame.key, ← hsame.din, ← hsame.gct, attackSession, hlast]
      rfl
    · simp [atkStepsLeft, hp, hlast]

/-- Every micro-step of an `ATK` under way: one less to come, or the end. -/
theorem exec_atk_underWay : ∃ t, exec (.atk bs ks) s = .next t ∧
    ((UnderWay (.atk bs ks) v s₀ t ∧ atkStepsLeft v s = atkStepsLeft v t + 1) ∨
      (AtkEnded v s₀ t ∧ atkStepsLeft v s = 1)) := by
  have hphase := h.phase
  cases hp : s.phase with
  | ks =>
    obtain ⟨t, he, hnext⟩ := exec_atk_ks hv h hp
    exact ⟨t, he, .inl hnext⟩
  | aenc =>
    obtain ⟨t, he, hnext⟩ := exec_atk_aenc hv h hp
    exact ⟨t, he, .inl hnext⟩
  | arec => exact exec_atk_arec hv h hp
  | idle | check | enc | dec => simp [passesThrough, hp] at hphase

end

/-! ### The whole command -/

/-- An `ATK` under way reaches its end within the micro-steps it still takes. -/
theorem runUntilIdle_atk {bs ks : BitVec 8} {v : Variant} {s₀ : State} (hv : lookupVariant bs ks = some v)
    (hcmd : s₀.cmd = encode (.atk bs ks)) (hbusy : s₀.status.busy = true) :
    ∀ {n : Nat} {s : State}, UnderWay (.atk bs ks) v s₀ s → atkStepsLeft v s ≤ n →
      ∃ t, runUntilIdle n s = .next t ∧ AtkEnded v s₀ t := by
  intro n
  induction n with
  | zero =>
    intro s h hn
    obtain ⟨t, -, ⟨-, hleft⟩ | ⟨-, hleft⟩⟩ := exec_atk_underWay hv h <;> omega
  | succ n ih =>
    intro s h hn
    have hsbusy : s.status.busy = true := by rw [h.same.status, hbusy]
    have hdecode : decode s.cmd = some (.atk bs ks) := by rw [h.same.cmd, hcmd, decode_encode]
    obtain ⟨t, he, hnext⟩ := exec_atk_underWay hv h
    rw [runUntilIdle_busy n hsbusy ((engineTurn_command hsbusy hdecode).trans he)]
    rcases hnext with ⟨hway, hleft⟩ | ⟨hend, -⟩
    · exact ih hway (by omega)
    · exact ⟨t, runUntilIdle_idle n (by rw [hend.status]; rfl), hend⟩

/-- R214: the loads of CHECK put a command on course for its first KS micro-step. -/
theorem checkLoads_underWay (bs ks : BitVec 8) (v : Variant) (s : State) :
    UnderWay (.atk bs ks) v s (checkLoads v s) := by
  have hrc := rc_ge v
  refine ⟨⟨rfl, rfl, rfl, rfl, rfl⟩, rfl, ?_, ?_⟩
  · show 0 < v.rc
    omega
  · exact ⟨rfl, rfl, fun k hk => absurd hk (Nat.not_lt_zero k)⟩

theorem atkStepsLeft_checkLoads_le (v : Variant) (s : State) : atkStepsLeft v (checkLoads v s) ≤ 1034 := by
  have hleft : atkStepsLeft v (checkLoads v s) = v.rc + v.ntrials * (v.rc + 1) := rfl
  rw [hleft]
  cases v <;> decide

/-- R213, R214: a command whose checks pass spends one micro-step on CHECK. -/
theorem runCommand_checked {i : Instr} {v : Variant} {s : State} (hv : lookupVariant i.bs i.ks = some v)
    (hfit : operandsFit i v s = true) :
    runCommand (encode i) s = runUntilIdle 1034 (checkLoads v (issue (encode i) s)) := by
  have hbusy : (issue (encode i) s).status.busy = true := rfl
  have hfit' : operandsFit i v (issue (encode i) s) = true :=
    (operandsFit_congr i v (s := s) (t := issue (encode i) s) rfl rfl rfl).trans hfit
  have hexec : exec i (issue (encode i) s) = .next (checkLoads v (issue (encode i) s)) := by
    rw [exec_check i _ (issue_phase _ s), checkStep_supported _ hv, if_pos hfit']
  exact runUntilIdle_busy 1034 hbusy ((engineTurn_command hbusy (decode_encode i)).trans hexec)

/-- R193: `ATK` with operands in range runs the session, whatever the ciphertext in `GCT`. -/
theorem runCommand_atk {bs ks : BitVec 8} {v : Variant} {s : State} (hv : lookupVariant bs ks = some v)
    (hfit : operandsFit (.atk bs ks) v s = true) :
    ∃ t, runCommand (encode (.atk bs ks)) s = .next t ∧ AtkEnded v s t := by
  obtain ⟨t, hrun, hend⟩ := runUntilIdle_atk (s₀ := issue (encode (.atk bs ks)) s) hv rfl rfl
    (checkLoads_underWay bs ks v _) (atkStepsLeft_checkLoads_le v _)
  exact ⟨t, (runCommand_checked (i := .atk bs ks) hv hfit).trans hrun, hend.status, hend.stored, hend.rkout⟩

/-- Settles O21: the session as a function by `attackSession_encrypt`; the machine runs that session by `runCommand_atk`. -/
theorem attackRecoversLastRoundKey : Obligations.AttackRecoversLastRoundKey := by
  refine ⟨fun v key p hp => attackSession_encrypt v key hp, fun bs ks v s _ hv hkey hdin hgct => ?_⟩
  have hrc := rc_ge v
  have hgctFits : s.gct.toNat < 2 ^ v.bs := hgct ▸ encrypt_lt (keySchedule_fits v s.key) hdin
  obtain ⟨t, hrun, hend⟩ := runCommand_atk hv ((operandsFit_iff _ v s).2 ⟨hkey, fun _ => hdin, fun _ => hgctFits⟩)
  have hrkout : t.rkout = keySchedule v s.key (v.rc - 1) := by
    rw [hend.rkout, hgct, attackSession_encrypt v s.key hdin]
  exact ⟨t, hrun, hend.status, hrkout.trans (hend.stored _ (by omega)).symm, hrkout⟩

end Sys2Proof.Machine
end

section
/-! PROOFS. The micro-steps of CHECK, ENC, DEC and AREC as exact next states (45_command_sequencer.md R214, R218, R219, R221). -/

namespace Sys2Proof.Machine

/-! ### CHECK -/

theorem keyWord_eq_ofNat (v : Variant) (key : KeyBits) (k : Nat) :
    keyWord v key k = BitVec.ofNat 32 ((key.toNat >>> (k * v.ws)) % 2 ^ v.ws) := by
  rw [← toNat_keyWord, BitVec.ofNat_toNat, BitVec.setWidth_eq]

/-- R213, R214: with supported parameters and the operands in range, CHECK takes the loads. -/
theorem exec_check_loads {i : Instr} {v : Variant} {s : State} (hp : s.phase = .check)
    (hv : lookupVariant i.bs i.ks = some v) (hfit : operandsFit i v s = true) : exec i s = .next (checkLoads v s) := by
  rw [exec_check i s hp, checkStep_supported _ hv, if_pos hfit]

/-- Settles O34: the range checks of the statement are `operandsFit`, and each word of the key is read by `keyWord_eq_ofNat`. -/
theorem checkPassesAndLoads : Obligations.CheckPassesAndLoads := by
  intro i v s hp hv hkey hdin hgct word
  have hword (k : Nat) : word k = keyWord v s.key k := (keyWord_eq_ofNat v s.key k).symm
  rw [exec_check_loads hp hv ((operandsFit_iff i v s).2 ⟨hkey, hdin, hgct⟩), hword, hword, hword, hword]
  rfl

/-! ### The cipher rounds -/

/-- Settles O38: the two branches of the ENC micro-step; a round index has its entry of `RK`. -/
theorem encRoundAndCompletion : Obligations.EncRoundAndCompletion := by
  intro bs ks v s hp hv newL
  have hdepth := rc_le v
  rw [exec_enc (.enc bs ks) v s hv hp]
  refine ⟨fun hmore => ?_, fun hlast => ?_⟩
  · exact (encStep_next_iff v s _).2 ⟨by omega, (if_pos hmore).symm⟩
  · exact (encStep_next_iff v s _).2 ⟨by omega, (if_neg (by omega)).symm⟩

/-- Settles O39: the two branches of the DEC micro-step, which counts down to zero. -/
theorem decRoundAndCompletion : Obligations.DecRoundAndCompletion := by
  intro bs ks v s hp hv newR
  have hdepth := rc_le v
  rw [exec_dec (.dec bs ks) v s hv hp]
  refine ⟨fun hmore hrange => ?_, fun hlast => ?_⟩
  · exact (decStep_next_iff v s _).2 ⟨by omega, (if_pos hmore).symm⟩
  · exact (decStep_next_iff v s _).2 ⟨hlast ▸ by decide, (if_neg (by omega)).symm⟩

/-! ### The recovery step -/

/-- A word that shows two writes bit by bit, the second over the first, is the word after both. -/
theorem setBit_setBit_eq {w x : Word} {a b : Nat} {p q : Bool}
    (hx : ∀ k, k < 32 → x.getLsbD k = if k = b then q else if k = a then p else w.getLsbD k) :
    setBit (setBit w a p) b q = x := by
  apply BitVec.eq_of_getLsbD_eq
  intro k hk
  rw [hx k hk, getLsbD_setBit, getLsbD_setBit]
  simp only [hk, and_true]

/-- R190: both accumulator registers of a trial's record, fixed by their bits. -/
theorem recordTrial_eq {v : Variant} {j : Nat} {c cf : Block} {m : KeyBitMap} {x y : Word}
    (hx : ∀ k, k < 32 → x.getLsbD k = if k = targetB j then (recoverTrial v j c cf).kb
      else if k = targetA v j then (recoverTrial v j c cf).ka else m.acc.getLsbD k)
    (hy : ∀ k, k < 32 → y.getLsbD k = if k = targetB j ∨ k = targetA v j then true else m.accv.getLsbD k) :
    recordTrial v j c cf m = { acc := x, accv := y } := by
  have hacc := setBit_setBit_eq hx
  have haccv := setBit_setBit_eq fun k hk => (hy k hk).trans (ite_or ..)
  simp only [recordTrial, KeyBitMap.write, hacc, haccv]

/-- Settles O41: `A` and `V` are the record of the trial by `recordTrial_eq`; then the two branches of the AREC micro-step. -/
theorem recoveryStepAndAttackCompletion : Obligations.RecoveryStepAndAttackCompletion := by
  intro bs ks v s A V hp hv hj j x y d a b ka kb hA hV
  have hrecord : recordTrial v s.j.toNat s.gct s.cf s.keyBitMap = { acc := A, accv := V } := recordTrial_eq hA hV
  have hbit : targetB s.j.toNat < v.ws := ntrials_add_five_lt v hj
  have hstep := arecStep_next_iff v s
  rw [hrecord] at hstep
  rw [exec_arec (.atk bs ks) v s hv hp]
  refine ⟨fun hmore => ?_, fun hlast => ?_⟩
  · exact (hstep _).2 ⟨hbit, (if_pos hmore).symm⟩
  · exact (hstep _).2 ⟨hbit, (if_neg (by omega)).symm⟩

end Sys2Proof.Machine
end

section
/-! PROOFS. The command word (30_encoding.md): a word is its four bytes, so the fields that decoding reads fix it. -/

namespace Sys2Proof.Machine

/-! ### A word and its fields (R81) -/

theorem fields_append (w : Word) : rsvField w ++ ksField w ++ bsField w ++ opField w = w := by
  apply BitVec.eq_of_getLsbD_eq
  intro k hk
  simp only [rsvField, ksField, bsField, opField, BitVec.getLsbD_append, BitVec.getLsbD_extractLsb']
  split_ifs with h0 h1 h2
  · simp [h0]
  · simp [h1, show 8 + (k - 8) = k by omega]
  · simp [h2, show 16 + (k - 8 - 8) = k by omega]
  · simp [show k - 8 - 8 - 8 < 8 by omega, show 24 + (k - 8 - 8 - 8) = k by omega]

/-- The operations there are (R83). -/
def IsOperation (op : BitVec 8) : Prop := op = 1#8 ∨ op = 2#8 ∨ op = 3#8 ∨ op = 4#8

theorem isOperation_op (i : Instr) : IsOperation i.op := by
  cases i <;> simp [IsOperation, Instr.op]

/-- R83, R85: decoding is reading the four fields. -/
theorem decode_eq_some_iff (w : Word) (i : Instr) :
    decode w = some i ↔ rsvField w = 0#8 ∧ opField w = i.op ∧ bsField w = i.bs ∧ ksField w = i.ks := by
  unfold decode decodeWord
  split_ifs with hrsv h1 h2 h3 h4 <;> cases i <;> simp_all [Decoded.toOption, Instr.op, Instr.bs, Instr.ks]

/-- The fields of a decoded word are those of its command, and a word is its fields. -/
theorem eq_encode_of_decode {w : Word} {i : Instr} (h : decode w = some i) : w = encode i := by
  obtain ⟨hrsv, hop, hbs, hks⟩ := (decode_eq_some_iff w i).1 h
  rw [encode, ← hrsv, ← hop, ← hbs, ← hks, fields_append]

theorem decode_eq_some_iff_eq_encode (i : Instr) (w : Word) : decode w = some i ↔ w = encode i :=
  ⟨eq_encode_of_decode, fun h => h ▸ decode_encode i⟩

/-- Settles O1: one direction by `eq_encode_of_decode`, the other by `decode_encode`. -/
theorem decodeGivesExactlyTheEncodedCommand : Obligations.DecodeGivesExactlyTheEncodedCommand :=
  decode_eq_some_iff_eq_encode

/-! ### Words that spell a command, and legal words (R84, R85) -/

theorem exists_decode_iff (w : Word) : (∃ i, decode w = some i) ↔ rsvField w = 0#8 ∧ IsOperation (opField w) := by
  constructor
  · rintro ⟨i, h⟩
    obtain ⟨hrsv, hop, -, -⟩ := (decode_eq_some_iff w i).1 h
    exact ⟨hrsv, hop ▸ isOperation_op i⟩
  · rintro ⟨hrsv, hop | hop | hop | hop⟩
    · exact ⟨.enc (bsField w) (ksField w), (decode_eq_some_iff w _).2 ⟨hrsv, hop, rfl, rfl⟩⟩
    · exact ⟨.dec (bsField w) (ksField w), (decode_eq_some_iff w _).2 ⟨hrsv, hop, rfl, rfl⟩⟩
    · exact ⟨.atk (bsField w) (ksField w), (decode_eq_some_iff w _).2 ⟨hrsv, hop, rfl, rfl⟩⟩
    · exact ⟨.kexp (bsField w) (ksField w), (decode_eq_some_iff w _).2 ⟨hrsv, hop, rfl, rfl⟩⟩

theorem decode_eq_none_iff (w : Word) : decode w = none ↔
    rsvField w ≠ 0#8 ∨ (opField w ≠ 1#8 ∧ opField w ≠ 2#8 ∧ opField w ≠ 3#8 ∧ opField w ≠ 4#8) := by
  rw [Option.eq_none_iff_forall_ne_some, ← not_exists, exists_decode_iff, IsOperation]
  tauto

/-- Settles O3. -/
theorem rejectedWordsHaveNoOperation : Obligations.RejectedWordsHaveNoOperation := decode_eq_none_iff

/-- The size pairs of the parameter table (R84, R100). -/
def IsSupportedPair (bs ks : BitVec 8) : Prop :=
  (bs = 32#8 ∧ ks = 64#8) ∨ (bs = 48#8 ∧ ks = 96#8) ∨ (bs = 64#8 ∧ ks = 128#8)

theorem wellFormed_iff (i : Instr) : i.wellFormed = true ↔ IsSupportedPair i.bs i.ks := by
  unfold Instr.wellFormed lookupVariant IsSupportedPair
  split_ifs <;> simp_all

/-- The commands of the table in the order of R84. -/
def legalCommands : List Instr :=
  [.enc 32 64, .enc 48 96, .enc 64 128, .dec 32 64, .dec 48 96, .dec 64 128,
   .atk 32 64, .atk 48 96, .atk 64 128, .kexp 32 64, .kexp 48 96, .kexp 64 128]

theorem legalWords_eq_map_encode : legalWords = legalCommands.map encode := by decide

theorem mem_legalCommands_iff (i : Instr) : i ∈ legalCommands ↔ i.wellFormed = true := by
  rw [wellFormed_iff, IsSupportedPair]
  cases i <;> simp [legalCommands, Instr.bs, Instr.ks]

theorem mem_legalWords_iff (w : Word) : w ∈ legalWords ↔ ∃ i, decode w = some i ∧ i.wellFormed = true := by
  simp only [legalWords_eq_map_encode, List.mem_map, mem_legalCommands_iff, decode_eq_some_iff_eq_encode]
  exact exists_congr fun i => and_comm.trans (and_congr_left' eq_comm)

/-- A word that spells a well-formed command shows it in its fields. -/
theorem exists_wellFormed_iff (w : Word) : (∃ i, decode w = some i ∧ i.wellFormed = true) ↔
    rsvField w = 0#8 ∧ IsOperation (opField w) ∧ IsSupportedPair (bsField w) (ksField w) := by
  constructor
  · rintro ⟨i, hi, hwf⟩
    obtain ⟨hrsv, hop, hbs, hks⟩ := (decode_eq_some_iff w i).1 hi
    exact ⟨hrsv, hop ▸ isOperation_op i, hbs ▸ hks ▸ (wellFormed_iff i).1 hwf⟩
  · rintro ⟨hrsv, hop, hpair⟩
    obtain ⟨i, hi⟩ := (exists_decode_iff w).2 ⟨hrsv, hop⟩
    obtain ⟨-, -, hbs, hks⟩ := (decode_eq_some_iff w i).1 hi
    exact ⟨i, hi, (wellFormed_iff i).2 (hbs ▸ hks ▸ hpair)⟩

/-- Settles O2: the list is the words of the well-formed commands, and those are told by their fields. -/
theorem legalWordsAreExactlyTwelve : Obligations.LegalWordsAreExactlyTwelve :=
  ⟨fun w => (exists_wellFormed_iff w).symm.trans (mem_legalWords_iff w).symm, by decide, rfl, mem_legalWords_iff, by decide⟩

/-- Settles O4: the fields of eight fixed words, evaluated. -/
theorem sampleWordsDecode : Obligations.SampleWordsDecode := by
  unfold Obligations.SampleWordsDecode
  decide

end Sys2Proof.Machine
end

section
/-! PROOFS. What a micro-step past CHECK can do, one constructor per branch of R216 to R221, and the frames that follow from it
(10_state.md R27 to R31, R47; 45_command_sequencer.md R226). -/

namespace Sys2Proof.Machine

/-! ### The branches of a micro-step -/

/-- The halves after the next ENC round (R218). -/
def encHalves (v : Variant) (s : State) : Halves := fwd v s.halves (s.rkAt s.i.toNat)

/-- The halves after the next DEC round (R219). -/
def decHalves (v : Variant) (s : State) : Halves := inv v s.halves (s.rkAt s.i.toNat)

/-- The halves after the next AENC round (R220). -/
def aencHalves (v : Variant) (s : State) : Halves :=
  fwd v (faultHook v s.i.toNat s.j.toNat s.halves) (s.rkAt s.i.toNat)

/-- The accumulator after the trial in `J` (R221). -/
def arecMap (v : Variant) (s : State) : KeyBitMap := recordTrial v s.j.toNat s.gct s.cf s.keyBitMap

/-- The end of `ENC` and `DEC`: `DOUT` from the last halves (R218, R219). -/
def finishBlock (v : Variant) (h : Halves) (s : State) : State :=
  finish 0#4 { s.withHalves h with dout := join v h }

/-- The end of a trial's encryption: `CF` from the last halves (R220). -/
def enterArec (v : Variant) (h : Halves) (s : State) : State :=
  { s.withHalves h with cf := join v h, phase := .arec }

/-- The end of `ATK`: `RKOUT` from the accumulator (R221). -/
def finishSession (m : KeyBitMap) (s : State) : State :=
  finish 0#4 { s.withKeyBitMap m with rkout := m.acc }

/-- The micro-steps past CHECK of the command `i` with parameters `v`. -/
inductive Transition (i : Instr) (v : Variant) (s : State) : State → Prop
  | ksRound (hp : s.phase = .ks) (hdepth : s.i.toNat < Config.rkDepth) (hmore : s.i.toNat + 1 < v.rc) :
      Transition i v s ((ksRoundWrites v s).withI (s.i.toNat + 1))
  | ksLast (hp : s.phase = .ks) (hdepth : s.i.toNat < Config.rkDepth) (hlast : ¬ s.i.toNat + 1 < v.rc) :
      Transition i v s (dispatchOf i v (ksRoundWrites v s))
  | encRound (hp : s.phase = .enc) (hdepth : s.i.toNat < Config.rkDepth) (hmore : s.i.toNat + 1 < v.rc) :
      Transition i v s ((s.withHalves (encHalves v s)).withI (s.i.toNat + 1))
  | encLast (hp : s.phase = .enc) (hdepth : s.i.toNat < Config.rkDepth) (hlast : ¬ s.i.toNat + 1 < v.rc) :
      Transition i v s (finishBlock v (encHalves v s) s)
  | decRound (hp : s.phase = .dec) (hdepth : s.i.toNat < Config.rkDepth) (hmore : 0 < s.i.toNat) :
      Transition i v s ((s.withHalves (decHalves v s)).withI (s.i.toNat - 1))
  | decLast (hp : s.phase = .dec) (hdepth : s.i.toNat < Config.rkDepth) (hlast : ¬ 0 < s.i.toNat) :
      Transition i v s (finishBlock v (decHalves v s) s)
  | aencRound (hp : s.phase = .aenc) (hdepth : s.i.toNat < Config.rkDepth) (hmore : s.i.toNat + 1 < v.rc) :
      Transition i v s ((s.withHalves (aencHalves v s)).withI (s.i.toNat + 1))
  | aencLast (hp : s.phase = .aenc) (hdepth : s.i.toNat < Config.rkDepth) (hlast : ¬ s.i.toNat + 1 < v.rc) :
      Transition i v s (enterArec v (aencHalves v s) s)
  | arecNext (hp : s.phase = .arec) (hbit : targetB s.j.toNat < v.ws) (hmore : s.j.toNat + 1 < v.ntrials) :
      Transition i v s (startTrialAt v (s.j.toNat + 1) (s.withKeyBitMap (arecMap v s)))
  | arecLast (hp : s.phase = .arec) (hbit : targetB s.j.toNat < v.ws) (hlast : ¬ s.j.toNat + 1 < v.ntrials) :
      Transition i v s (finishSession (arecMap v s) s)

/-- A micro-step past CHECK is one of the branches. -/
theorem transition_of_exec {i : Instr} {v : Variant} {s t : State} (hv : lookupVariant i.bs i.ks = some v)
    (hp : s.phase ≠ .check) (h : exec i s = .next t) : Transition i v s t := by
  rcases exec_next_cases h with ⟨hcheck, -⟩ | ⟨w, hw, hcase⟩
  · exact absurd hcheck hp
  obtain rfl : w = v := Option.some.inj (hw.symm.trans hv)
  rcases hcase with ⟨hphase, hstep⟩ | ⟨hphase, hstep⟩ | ⟨hphase, hstep⟩ | ⟨hphase, hstep⟩ | ⟨hphase, hstep⟩
  · obtain ⟨hdepth, rfl⟩ := (ksStep_next_iff _ w s t).1 hstep
    split_ifs with hmore
    · exact .ksRound hphase hdepth hmore
    · exact .ksLast hphase hdepth hmore
  · obtain ⟨hdepth, rfl⟩ := (encStep_next_iff w s t).1 hstep
    split_ifs with hmore
    · exact .encRound hphase hdepth hmore
    · exact .encLast hphase hdepth hmore
  · obtain ⟨hdepth, rfl⟩ := (decStep_next_iff w s t).1 hstep
    split_ifs with hmore
    · exact .decRound hphase hdepth hmore
    · exact .decLast hphase hdepth hmore
  · obtain ⟨hdepth, rfl⟩ := (aencStep_next_iff w s t).1 hstep
    split_ifs with hmore
    · exact .aencRound hphase hdepth hmore
    · exact .aencLast hphase hdepth hmore
  · obtain ⟨hbit, rfl⟩ := (arecStep_next_iff w s t).1 hstep
    split_ifs with hmore
    · exact .arecNext hphase hbit hmore
    · exact .arecLast hphase hbit hmore

/-- And each branch is the micro-step of its phase. -/
theorem exec_of_transition {i : Instr} {v : Variant} {s t : State} (hv : lookupVariant i.bs i.ks = some v)
    (h : Transition i v s t) : exec i s = .next t := by
  cases h with
  | ksRound hp hdepth hmore => exact (exec_ks i v s hv hp).trans ((ksStep_next_iff _ v s _).2 ⟨hdepth, (if_pos hmore).symm⟩)
  | ksLast hp hdepth hlast => exact (exec_ks i v s hv hp).trans ((ksStep_next_iff _ v s _).2 ⟨hdepth, (if_neg hlast).symm⟩)
  | encRound hp hdepth hmore => exact (exec_enc i v s hv hp).trans ((encStep_next_iff v s _).2 ⟨hdepth, (if_pos hmore).symm⟩)
  | encLast hp hdepth hlast => exact (exec_enc i v s hv hp).trans ((encStep_next_iff v s _).2 ⟨hdepth, (if_neg hlast).symm⟩)
  | decRound hp hdepth hmore => exact (exec_dec i v s hv hp).trans ((decStep_next_iff v s _).2 ⟨hdepth, (if_pos hmore).symm⟩)
  | decLast hp hdepth hlast => exact (exec_dec i v s hv hp).trans ((decStep_next_iff v s _).2 ⟨hdepth, (if_neg hlast).symm⟩)
  | aencRound hp hdepth hmore =>
    exact (exec_aenc i v s hv hp).trans ((aencStep_next_iff v s _).2 ⟨hdepth, (if_pos hmore).symm⟩)
  | aencLast hp hdepth hlast =>
    exact (exec_aenc i v s hv hp).trans ((aencStep_next_iff v s _).2 ⟨hdepth, (if_neg hlast).symm⟩)
  | arecNext hp hbit hmore => exact (exec_arec i v s hv hp).trans ((arecStep_next_iff v s _).2 ⟨hbit, (if_pos hmore).symm⟩)
  | arecLast hp hbit hlast => exact (exec_arec i v s hv hp).trans ((arecStep_next_iff v s _).2 ⟨hbit, (if_neg hlast).symm⟩)

/-- Everything a micro-step can do: an end in CHECK, the loads of CHECK, or a branch past it. -/
theorem exec_next_inversion {i : Instr} {s t : State} (h : exec i s = .next t) :
    (s.phase = .check ∧ ∃ e, e ≠ 0#4 ∧ e.toNat ≤ 3 ∧ t = finish e s) ∨
    (∃ v, lookupVariant i.bs i.ks = some v ∧ s.phase = .check ∧ operandsFit i v s = true ∧ t = checkLoads v s) ∨
    ∃ v, lookupVariant i.bs i.ks = some v ∧ s.phase ≠ .check ∧ Transition i v s t := by
  by_cases hp : s.phase = .check
  · rw [exec_check i s hp] at h
    cases h
    rcases checkStep_cases i s with heq | heq | ⟨v, hv, hfit, heq⟩
    · exact .inl ⟨hp, 2#4, by decide, by decide, heq⟩
    · exact .inl ⟨hp, 1#4, by decide, by decide, heq⟩
    · exact .inr (.inl ⟨v, hv, hp, hfit, heq⟩)
  · rcases exec_next_cases h with ⟨hcheck, -⟩ | ⟨v, hv, -⟩
    · exact absurd hcheck hp
    · exact .inr (.inr ⟨v, hv, hp, transition_of_exec hv hp h⟩)

/-! ### What no micro-step changes, and what it does not read (R226, R71) -/

/-- What the host put there: no micro-step writes it. -/
structure SameOperands (s t : State) : Prop where
  cmd : t.cmd = s.cmd
  key : t.key = s.key
  din : t.din = s.din
  gct : t.gct = s.gct
  host : t.host = s.host

theorem SameOperands.trans {s t u : State} (h : SameOperands s t) (h' : SameOperands t u) : SameOperands s u :=
  ⟨h'.cmd.trans h.cmd, h'.key.trans h.key, h'.din.trans h.din, h'.gct.trans h.gct, h'.host.trans h.host⟩

theorem SameOperands.operandsFit_eq {s t : State} (h : SameOperands s t) (i : Instr) (v : Variant) :
    operandsFit i v t = operandsFit i v s :=
  operandsFit_congr i v h.key h.din h.gct

theorem checkLoads_sameOperands (v : Variant) (s : State) : SameOperands s (checkLoads v s) :=
  ⟨rfl, rfl, rfl, rfl, rfl⟩

theorem ksRoundWrites_sameOperands (v : Variant) (s : State) : SameOperands s (ksRoundWrites v s) :=
  ⟨rfl, rfl, rfl, rfl, rfl⟩

theorem dispatchOf_sameOperands (i : Instr) (v : Variant) (s : State) : SameOperands s (dispatchOf i v s) := by
  cases i <;> exact ⟨rfl, rfl, rfl, rfl, rfl⟩

@[simp] theorem dispatchOf_rk (i : Instr) (v : Variant) (s : State) : (dispatchOf i v s).rk = s.rk := by
  cases i <;> rfl

section
variable {i : Instr} {v : Variant} {s t : State}

theorem Transition.sameOperands (h : Transition i v s t) : SameOperands s t := by
  cases h with
  | ksLast => exact (ksRoundWrites_sameOperands v s).trans (dispatchOf_sameOperands i v _)
  | ksRound | encRound | encLast | decRound | decLast | aencRound | aencLast | arecNext | arecLast =>
    exact ⟨rfl, rfl, rfl, rfl, rfl⟩

theorem exec_sameOperands (h : exec i s = .next t) : SameOperands s t := by
  rcases exec_next_inversion h with ⟨-, e, -, -, rfl⟩ | ⟨v, -, -, -, rfl⟩ | ⟨v, -, -, htr⟩
  · exact ⟨rfl, rfl, rfl, rfl, rfl⟩
  · exact checkLoads_sameOperands v s
  · exact htr.sameOperands

theorem Transition.withHost (h : Transition i v s t) (a : HostAgent) :
    Transition i v { s with host := a } { t with host := a } := by
  cases h with
  | ksRound hp hdepth hmore => exact .ksRound hp hdepth hmore
  | ksLast hp hdepth hlast => cases i <;> exact .ksLast hp hdepth hlast
  | encRound hp hdepth hmore => exact .encRound hp hdepth hmore
  | encLast hp hdepth hlast => exact .encLast hp hdepth hlast
  | decRound hp hdepth hmore => exact .decRound hp hdepth hmore
  | decLast hp hdepth hlast => exact .decLast hp hdepth hlast
  | aencRound hp hdepth hmore => exact .aencRound hp hdepth hmore
  | aencLast hp hdepth hlast => exact .aencLast hp hdepth hlast
  | arecNext hp hbit hmore => exact .arecNext hp hbit hmore
  | arecLast hp hbit hlast => exact .arecLast hp hbit hlast

end

/-- CHECK reads nothing of the host. -/
theorem checkStep_withHost (i : Instr) (s : State) (a : HostAgent) :
    checkStep (operandsFit i) i.bs i.ks { s with host := a } =
      { checkStep (operandsFit i) i.bs i.ks s with host := a } := by
  cases hv : lookupVariant i.bs i.ks with
  | none => rw [checkStep_unsupported _ hv, checkStep_unsupported _ hv]; rfl
  | some v =>
    have hfit : operandsFit i v { s with host := a } = operandsFit i v s := operandsFit_congr i v rfl rfl rfl
    rw [checkStep_supported _ hv, checkStep_supported _ hv, hfit]
    split_ifs <;> rfl

theorem exec_withHost {i : Instr} {s t : State} (h : exec i s = .next t) (a : HostAgent) :
    exec i { s with host := a } = .next { t with host := a } := by
  by_cases hp : s.phase = .check
  · rw [exec_check i s hp] at h
    cases h
    rw [exec_check i { s with host := a } hp, checkStep_withHost]
  · rcases exec_next_cases h with ⟨hcheck, -⟩ | ⟨v, hv, -⟩
    · exact absurd hcheck hp
    · exact exec_of_transition hv ((transition_of_exec hv hp h).withHost a)

/-- Settles O42: the operands by `exec_sameOperands`, another host by `exec_withHost`. -/
theorem microStepsLeaveOperandsAndHost : Obligations.MicroStepsLeaveOperandsAndHost := by
  intro i s t h
  obtain ⟨hcmd, hkey, hdin, hgct, hhost⟩ := exec_sameOperands h
  exact ⟨hcmd, hkey, hdin, hgct, hhost, exec_withHost h⟩

/-! ### The round-key store (R30, R31) -/

section
variable {i : Instr} {v : Variant} {s t : State}

theorem rkAt_eq_of_rk_eq (h : t.rk = s.rk) (k : Nat) : t.rkAt k = s.rkAt k := by
  rw [State.rkAt, State.rkAt, h]

theorem rkAt_ksRoundWrites (v : Variant) (s : State) (k : Nat) :
    (ksRoundWrites v s).rkAt k = if s.i.toNat = k ∧ k < Config.rkDepth then s.t.t0 else s.rkAt k :=
  rkAt_storeRk s s.i.toNat k s.t.t0

theorem Transition.rk_eq (h : Transition i v s t) :
    (s.phase = .ks ∧ ∀ k, t.rkAt k = (ksRoundWrites v s).rkAt k) ∨ (s.phase ≠ .ks ∧ t.rk = s.rk) := by
  cases h with
  | ksRound hp => exact .inl ⟨hp, fun k => rfl⟩
  | ksLast hp => exact .inl ⟨hp, rkAt_eq_of_rk_eq (dispatchOf_rk i v _)⟩
  | encRound hp | encLast hp | decRound hp | decLast hp | aencRound hp | aencLast hp | arecNext hp | arecLast hp =>
    exact .inr ⟨by simp [hp], rfl⟩

theorem Transition.rkAt_of_ne (h : Transition i v s t) {k : Nat} (hk : k ≠ s.i.toNat) : t.rkAt k = s.rkAt k := by
  rcases h.rk_eq with ⟨-, hks⟩ | ⟨-, hrk⟩
  · rw [hks, rkAt_ksRoundWrites, if_neg fun hik => hk hik.1.symm]
  · exact rkAt_eq_of_rk_eq hrk k

end

/-- Settles O44: only the KS branches store, and in entry `I` alone. -/
theorem storeWrittenOnlyByTheKeySchedule : Obligations.StoreWrittenOnlyByTheKeySchedule := by
  intro i v s t h hv
  suffices hframe : (s.phase ≠ .ks → t.rk = s.rk) ∧ ∀ k, k ≠ s.i.toNat → t.rkAt k = s.rkAt k from
    ⟨hframe.1, hframe.2, fun hi k hk => hframe.2 k (by omega)⟩
  rcases exec_next_inversion h with ⟨-, e, -, -, rfl⟩ | ⟨w, -, -, -, rfl⟩ | ⟨w, -, -, htr⟩
  · exact ⟨fun _ => rfl, fun _ _ => rfl⟩
  · exact ⟨fun _ => rfl, fun _ _ => rfl⟩
  · refine ⟨fun hp => ?_, fun k => htr.rkAt_of_ne⟩
    rcases htr.rk_eq with ⟨hks, -⟩ | ⟨-, hrk⟩
    · exact absurd hks hp
    · exact hrk

/-! ### The result registers and `STATUS` (R27, R28, R285) -/

/-- The dispatch of `KEXP` ends it; every other one enters the command's own phase. -/
theorem dispatchOf_results (i : Instr) (v : Variant) (s : State) :
    ((dispatchOf i v s).phase ≠ .idle ∧ (dispatchOf i v s).status = s.status ∧ (dispatchOf i v s).dout = s.dout ∧
      (dispatchOf i v s).rkout = s.rkout) ∨
    ((dispatchOf i v s).phase = .idle ∧ (dispatchOf i v s).status = Status.ended 0#4) := by
  cases i with
  | kexp => exact .inr ⟨rfl, rfl⟩
  | enc | dec | atk => exact .inl ⟨Phase.noConfusion, rfl, rfl, rfl⟩

/-- A micro-step either leaves the result registers and `STATUS` alone and does not end the command, or ends it. -/
theorem Transition.results {i : Instr} {v : Variant} {s t : State} (h : Transition i v s t) :
    (t.phase ≠ .idle ∧ t.status = s.status ∧ t.dout = s.dout ∧ t.rkout = s.rkout) ∨
      (t.phase = .idle ∧ t.status = Status.ended 0#4) := by
  cases h with
  | ksRound hp | encRound hp | decRound hp | aencRound hp =>
    exact .inl ⟨fun hidle => absurd (hp.symm.trans hidle) (by decide), rfl, rfl, rfl⟩
  | ksLast => exact dispatchOf_results i v (ksRoundWrites v s)
  | aencLast | arecNext => exact .inl ⟨Phase.noConfusion, rfl, rfl, rfl⟩
  | encLast | decLast | arecLast => exact .inr ⟨rfl, rfl⟩

/-- Settles O45: CHECK ends a command with an error or loads, and past it `Transition.results` says which. -/
theorem resultsChangeOnlyAtCommandEnd : Obligations.ResultsChangeOnlyAtCommandEnd := by
  intro i s t h
  rcases exec_next_inversion h with ⟨-, e, -, -, rfl⟩ | ⟨v, -, -, -, rfl⟩ | ⟨v, -, -, htr⟩
  · exact ⟨fun hne => absurd rfl hne, fun _ => ⟨rfl, rfl⟩, fun hne => by simp at hne⟩
  · exact ⟨fun _ => ⟨rfl, rfl, rfl⟩, Phase.noConfusion, fun hne => by simp [checkLoads] at hne⟩
  · rcases htr.results with ⟨hphase, hstatus, hdout, hrkout⟩ | ⟨hphase, hstatus⟩
    · exact ⟨fun _ => ⟨hstatus, hdout, hrkout⟩, fun hidle => absurd hidle hphase,
        fun hne => absurd hne (by simp [hdout, hrkout])⟩
    · exact ⟨fun hne => absurd hphase hne, fun _ => by simp [hstatus, Status.ended], fun _ => ⟨hphase, hstatus⟩⟩

/-! ### What each command leaves alone (R47) -/

/-- The registers that only `ATK` writes. -/
structure SameAttackRegs (s t : State) : Prop where
  rkout : t.rkout = s.rkout
  j : t.j = s.j
  acc : t.acc = s.acc
  accv : t.accv = s.accv
  cf : t.cf = s.cf

theorem dispatchOf_sameAttackRegs {i : Instr} (hop : i.op ≠ 3#8) (v : Variant) (s : State) :
    SameAttackRegs s (dispatchOf i v s) := by
  cases i with
  | atk => exact absurd rfl hop
  | enc | dec | kexp => exact ⟨rfl, rfl, rfl, rfl, rfl⟩

@[simp] theorem dispatchOf_dout (i : Instr) (v : Variant) (s : State) : (dispatchOf i v s).dout = s.dout := by
  cases i <;> rfl

section
variable {i : Instr} {v : Variant} {s t : State}

theorem Transition.sameAttackRegs (h : Transition i v s t) (hop : i.op ≠ 3#8) (haenc : s.phase ≠ .aenc)
    (harec : s.phase ≠ .arec) : SameAttackRegs s t := by
  cases h with
  | ksRound | encRound | encLast | decRound | decLast => exact ⟨rfl, rfl, rfl, rfl, rfl⟩
  | ksLast =>
    obtain ⟨hrkout, hj, hacc, haccv, hcf⟩ := dispatchOf_sameAttackRegs hop v (ksRoundWrites v s)
    exact ⟨hrkout, hj, hacc, haccv, hcf⟩
  | aencRound hp | aencLast hp => exact absurd hp haenc
  | arecNext hp | arecLast hp => exact absurd hp harec

theorem Transition.dout_eq (h : Transition i v s t) (henc : s.phase ≠ .enc) (hdec : s.phase ≠ .dec) : t.dout = s.dout := by
  cases h with
  | ksRound | aencRound | aencLast | arecNext | arecLast => rfl
  | ksLast => exact dispatchOf_dout i v (ksRoundWrites v s)
  | encRound hp | encLast hp => exact absurd hp henc
  | decRound hp | decLast hp => exact absurd hp hdec

/-- In KS only the dispatch loads the halves, and that of `KEXP` does not. -/
theorem Transition.kexp_halves {bs ks : BitVec 8} (h : Transition (.kexp bs ks) v s t) (hp : s.phase = .ks) :
    t.halves = s.halves := by
  cases h with
  | ksRound | ksLast => rfl
  | encRound hp' | encLast hp' | decRound hp' | decLast hp' | aencRound hp' | aencLast hp' | arecNext hp' | arecLast hp' =>
    simp [hp] at hp'

theorem exec_sameAttackRegs (h : exec i s = .next t) (hop : i.op ≠ 3#8) (haenc : s.phase ≠ .aenc)
    (harec : s.phase ≠ .arec) : SameAttackRegs s t := by
  rcases exec_next_inversion h with ⟨-, e, -, -, rfl⟩ | ⟨v, -, -, -, rfl⟩ | ⟨v, -, -, htr⟩
  · exact ⟨rfl, rfl, rfl, rfl, rfl⟩
  · exact ⟨rfl, rfl, rfl, rfl, rfl⟩
  · exact htr.sameAttackRegs hop haenc harec

theorem exec_dout_eq (h : exec i s = .next t) (henc : s.phase ≠ .enc) (hdec : s.phase ≠ .dec) : t.dout = s.dout := by
  rcases exec_next_inversion h with ⟨-, e, -, -, rfl⟩ | ⟨v, -, -, -, rfl⟩ | ⟨v, -, -, htr⟩
  · rfl
  · rfl
  · exact htr.dout_eq henc hdec

theorem exec_kexp_halves {bs ks : BitVec 8} (h : exec (.kexp bs ks) s = .next t) (hp : s.phase = .check ∨ s.phase = .ks) :
    t.halves = s.halves := by
  rcases exec_next_inversion h with ⟨-, e, -, -, rfl⟩ | ⟨v, -, -, -, rfl⟩ | ⟨v, -, hcheck, htr⟩
  · rfl
  · rfl
  · exact htr.kexp_halves (hp.resolve_left hcheck)

end

/-- Settles O43: `ENC`, `DEC` and `KEXP` stay out of the attack registers, `ATK` and `KEXP` out of `DOUT`, and `KEXP` out of the
halves. -/
theorem frameOfEachCommand : Obligations.FrameOfEachCommand := by
  intro bs ks s t
  refine ⟨fun hp h => ?_, fun hp h => ?_, fun hp h => ?_, fun hp h => ?_⟩
  · obtain ⟨hrkout, hj, hacc, haccv, hcf⟩ := exec_sameAttackRegs h (by simp [Instr.op]) (by grind) (by grind)
    exact ⟨hrkout, hj, hacc, haccv, hcf⟩
  · obtain ⟨hrkout, hj, hacc, haccv, hcf⟩ := exec_sameAttackRegs h (by simp [Instr.op]) (by grind) (by grind)
    exact ⟨hrkout, hj, hacc, haccv, hcf⟩
  · exact exec_dout_eq h (by grind) (by grind)
  · obtain ⟨hrkout, hj, hacc, haccv, hcf⟩ := exec_sameAttackRegs h (by simp [Instr.op]) (by grind) (by grind)
    have hhalves := exec_kexp_halves h hp
    exact ⟨exec_dout_eq h (by grind) (by grind), hrkout, congrArg Halves.left hhalves, congrArg Halves.right hhalves,
      hj, hacc, haccv, hcf⟩

end Sys2Proof.Machine
end

section
/-! PROOFS. The host port and the turns of a step (20_memory.md R61 to R64, 45_command_sequencer.md R210 to R212,
70_reset_and_hazards.md R280). -/

namespace Sys2Proof.Machine

/-! ### The register map (R61) -/

@[simp] theorem ofNumber_number (g : Reg) : Reg.ofNumber g.number = some g := by
  cases g with
  | rk k =>
    have hk : k.val < Config.rkDepth := k.isLt
    grind [Reg.ofNumber, Reg.number]
  | cmd | status | key | din | gct | dout | rkout => rfl

theorem ofNumber_eq_some_iff (n : Nat) (g : Reg) : Reg.ofNumber n = some g ↔ g.number = n := by
  constructor
  · intro h
    unfold Reg.ofNumber at h
    split_ifs at h <;> cases h <;> simp only [Reg.number] <;> omega
  · rintro rfl
    exact ofNumber_number g

theorem ofNumber_eq_none_iff (n : Nat) : Reg.ofNumber n = none ↔ (7 ≤ n ∧ n ≤ 0x3F) ∨ 0x6C ≤ n := by
  unfold Reg.ofNumber Config.rkDepth
  split_ifs <;> simp <;> omega

/-- Settles O24. -/
theorem registerMap : Obligations.RegisterMap := ⟨ofNumber_eq_some_iff, ofNumber_eq_none_iff⟩

/-! ### The turns of a step -/

section
variable {s : State} {rest : List HostTurn}

theorem step_of_nil (h : s.host.script = []) : step s = engineTurn s := by simp [step, takeTurn, h]

theorem step_of_engine (h : s.host.script = .engine :: rest) : step s = engineTurn (s.withScript rest) := by
  simp [step, takeTurn, h]

theorem step_of_read {n : Nat} (h : s.host.script = .read n :: rest) : step s = hostRead n (s.withScript rest) := by
  simp [step, takeTurn, h]

theorem step_of_write {n x : Nat} (h : s.host.script = .write n x :: rest) :
    step s = hostWrite n x (s.withScript rest) := by
  simp [step, takeTurn, h]

theorem step_of_wait (h : s.host.script = .wait :: rest) : step s = waitTurn rest s := by simp [step, takeTurn, h]

theorem step_of_wait_polling (h : s.host.script = .wait :: rest) (hd : s.status.done = false) : step s = engineTurn s := by
  simp [step_of_wait h, waitTurn, hd]

theorem step_of_reset (h : s.host.script = .reset :: rest) : step s = .next (resetEngine (s.withScript rest)) := by
  simp [step, takeTurn, h]

/-- A read of register `g` tells the host its value, whatever the engine does. -/
theorem step_of_read_number (g : Reg) (h : s.host.script = .read g.number :: rest) :
    step s = .next { s with host := { script := rest, seen := s.host.seen ++ [(g.number, readReg s g)] } } := by
  rw [step_of_read h, hostRead_mapped (ofNumber_number g)]
  cases g <;> rfl

/-- A write that register `g` can hold, while not busy. -/
theorem step_of_write_number (g : Reg) {x : Nat} (hb : s.status.busy = false)
    (h : s.host.script = .write g.number x :: rest) (hx : x < 2 ^ g.width) :
    step s = .next (writeReg (s.withScript rest) x g) := by
  rw [step_of_write h]
  exact hostWrite_accepted hb (ofNumber_number g) hx

end

/-! ### Host events (R62 to R64, R280) -/

/-- Settles O23. -/
theorem resetEventFromAnyState : Obligations.ResetEventFromAnyState := fun _ _ h => step_of_reset h

/-- R22: the three fields of `STATUS` in the word that the host reads. -/
theorem toNat_status_word (x : Status) : x.word.toNat = x.busy.toNat + 2 * x.done.toNat + 16 * x.err.toNat := by
  have hall : ∀ (b d : Bool) (e : BitVec 4), (Status.word ⟨b, d, e⟩).toNat = b.toNat + 2 * d.toNat + 16 * e.toNat := by
    decide +kernel
  exact hall x.busy x.done x.err

/-- Settles O25: a mapped number is the number of its register, whose value `step_of_read_number` gives. -/
theorem hostReadReturnsTheRegister : Obligations.HostReadReturnsTheRegister := by
  intro s n rest h
  refine ⟨fun x hx => ?_, fun hn => ?_⟩
  · rcases hx with ⟨rfl, rfl⟩ | ⟨rfl, rfl⟩ | ⟨rfl, rfl⟩ | ⟨rfl, rfl⟩ | ⟨rfl, rfl⟩ | ⟨rfl, rfl⟩ | ⟨rfl, rfl⟩ | ⟨k, hk, rfl, rfl⟩
    · exact step_of_read_number .cmd h
    · exact toNat_status_word s.status ▸ step_of_read_number .status h
    · exact step_of_read_number .key h
    · exact step_of_read_number .din h
    · exact step_of_read_number .gct h
    · exact step_of_read_number .dout h
    · exact step_of_read_number .rkout h
    · exact step_of_read_number (.rk ⟨k, hk⟩) h
  · simp [step_of_read h, hostRead, (ofNumber_eq_none_iff n).2 hn]

/-- Settles O26: a busy write is dropped, and a read of a mapped number goes to `host.seen`. -/
theorem hostCannotDisturbARunningCommand : Obligations.HostCannotDisturbARunningCommand := by
  intro s n x rest hb
  refine ⟨fun h => ?_, fun h hn => ?_⟩
  · rw [step_of_write h]
    exact hostWrite_busy n x hb
  · obtain ⟨g, hg⟩ := Option.isSome_iff_exists.1 hn
    obtain rfl := (ofNumber_eq_some_iff n g).1 hg
    exact ⟨_, step_of_read_number g h, rfl⟩

/-- Settles O27: each number is that of its register, whose write `writeReg` spells out. -/
theorem hostWriteWhileIdle : Obligations.HostWriteWhileIdle := by
  intro s n x rest hb h s'
  refine ⟨?_, ?_, ?_, ?_, ?_, fun hn hx => ?_, fun hn => ?_⟩
  · rintro rfl hx
    exact step_of_write_number .cmd hb h hx
  · rintro rfl hx
    exact step_of_write_number .key hb h hx
  · rintro rfl hx
    exact step_of_write_number .din hb h hx
  · rintro rfl hx
    exact step_of_write_number .gct hb h hx
  · rintro rfl hx
    exact step_of_write_number .dout hb h hx
  · rcases hn with rfl | rfl | ⟨hlo, hhi⟩
    · exact step_of_write_number .status hb h hx
    · exact step_of_write_number .rkout hb h hx
    · obtain ⟨k, rfl⟩ := Nat.exists_eq_add_of_le hlo
      exact step_of_write_number (.rk ⟨k, (by omega : k < 44)⟩) hb h hx
  · simp [step_of_write h, hostWrite, hb, (ofNumber_eq_none_iff n).2 hn]

/-! ### The engine's turn (R212) -/

/-- Settles O28. -/
theorem stepRunsTheDecodedCommand : Obligations.StepRunsTheDecodedCommand := by
  intro s i rest hb hd
  refine ⟨fun h => ?_, fun h => ?_, fun h hdone => ?_⟩
  · rw [step_of_nil h, engineTurn_command hb hd]
  · rw [step_of_engine h]
    exact engineTurn_command hb hd
  · rw [step_of_wait_polling h hdone, engineTurn_command hb hd]

theorem engineTurn_issue {w : Word} {i : Instr} (hd : decode w = some i) (s : State) :
    engineTurn (issue w s) = exec i (issue w s) :=
  engineTurn_command (s := issue w s) rfl hd

theorem step_issuedState (w : Word) (s : State) : step (issuedState w s) = engineTurn (issue w s) :=
  step_of_engine rfl

/-- Settles O29: the placed word is issued with an engine turn in front, and it is the encoding of what it decodes to. -/
theorem fetchedWordRunsNext : Obligations.FetchedWordRunsNext := by
  intro s nbits w i h
  have hd : decode (BitVec.ofNat 32 (w % 2 ^ nbits)) = some i := by
    unfold decodeTableWord at h
    split_ifs at h
    exact h
  rw [State.withFetchWord, step_issuedState, engineTurn_issue hd, eq_encode_of_decode hd]
  rfl

theorem engineTurn_illegal {s : State} (hb : s.status.busy = true) (hp : s.phase = .check) (hd : decode s.cmd = none) :
    engineTurn s = .next (finish 3#4 s) := by
  simp [engineTurn, illegalWordStep, hb, hd, hp, CommandError.code]

/-- Settles O30. -/
theorem illegalWordTakesIllegalCommand : Obligations.IllegalWordTakesIllegalCommand := by
  intro s rest hb hp hw t
  have hd : decode s.cmd = none := (decode_eq_none_iff s.cmd).2 hw
  refine ⟨fun h => ?_, fun h => ?_, fun h hdone => ?_⟩
  · rw [step_of_nil h]
    exact engineTurn_illegal hb hp hd
  · rw [step_of_engine h]
    exact engineTurn_illegal hb hp hd
  · rw [step_of_wait_polling h hdone]
    exact engineTurn_illegal hb hp hd

/-- Settles O31. -/
theorem idleEngineDoesNothing : Obligations.IdleEngineDoesNothing := by
  intro s rest hb
  refine ⟨fun h => ?_, fun h => ?_, fun h hdone => ?_, fun h hdone => ?_⟩
  · rw [step_of_nil h, engineTurn_idle hb]
  · rw [step_of_engine h]
    exact engineTurn_idle hb
  · rw [step_of_wait_polling h hdone, engineTurn_idle hb]
  · rw [step_of_wait h, waitTurn, if_pos hdone]
    rfl

/-! ### Everything a step can do -/

/-- An invariant is kept by every step when it does not look at the host agent and is kept by the engine's turn, by a host write
while not busy, and by reset. `P` is what is known before the step, `Q` what is to hold after it. -/
theorem step_next_induction {P Q : State → Prop} (hhost : ∀ s a, P s → P { s with host := a }) (hsame : ∀ s, P s → Q s)
    (hengine : ∀ s t, P s → engineTurn s = .next t → Q t)
    (hwrite : ∀ s x g, P s → s.status.busy = false → Q (writeReg s x g)) (hreset : ∀ s, Q (resetEngine s))
    {s t : State} (hs : P s) (h : step s = .next t) : Q t := by
  have hscript (rest : List HostTurn) : P (s.withScript rest) := hhost s _ hs
  cases hq : s.host.script with
  | nil => exact hengine s t hs (step_of_nil hq ▸ h)
  | cons turn rest =>
    cases turn with
    | engine => exact hengine _ t (hscript rest) (step_of_engine hq ▸ h)
    | read n =>
      rw [step_of_read hq, hostRead] at h
      cases hn : Reg.ofNumber n with
      | none => simp [hn] at h
      | some g =>
        simp only [hn, Host.Outcome.next.injEq] at h
        exact h ▸ hsame _ (hhost s _ hs)
    | write n x =>
      rw [step_of_write hq] at h
      rcases hostWrite_next h with ⟨-, rfl⟩ | ⟨hb, g, -, -, rfl⟩
      · exact hsame _ (hscript rest)
      · exact hwrite _ x g (hscript rest) hb
    | wait =>
      rw [step_of_wait hq, waitTurn] at h
      split_ifs at h with hdone
      · cases h
        exact hsame _ (hhost s _ hs)
      · exact hengine s t hs h
    | reset =>
      rw [step_of_reset hq] at h
      cases h
      exact hreset _

end Sys2Proof.Machine
end

section
/-! PROOFS. The invariant of the reachable states (`Coherent`): every branch of a micro-step keeps the command's phase, counters
and widths, and the host's turns cannot break them (10_state.md R23, R35 to R37, R41, R44; 45_command_sequencer.md R222, R226). -/

namespace Sys2Proof.Machine

/-! ### Widths of what a micro-step loads (R44, R126) -/

theorem zero_fits (v : Variant) : Fits v 0#32 := Nat.two_pow_pos v.ws

theorem lfsrLoad_lt (v : Variant) : (lfsrLoad v).toNat < 2 ^ v.lw := by cases v <;> decide

/-- The window shifts down, and the feedback bit enters at the top of its own width, not above. -/
theorem lfsrStep_lt (v : Variant) {n : Nat} (hn : v.lw ≤ n) {x : BitVec 6} (hx : x.toNat < 2 ^ n) :
    (lfsrStep v x).toNat < 2 ^ n := by
  rw [toNat_lt_two_pow_iff] at hx ⊢
  intro k hk
  have hlw : 0 < v.lw := by cases v <;> decide
  simp only [lfsrStep, BitVec.getLsbD_or, BitVec.getLsbD_ushiftRight, hx (1 + k) (by omega), BitVec.getLsbD_shiftLeft,
    BitVec.getLsbD_setWidth, Bool.false_or]
  rw [BitVec.getLsbD_of_ge _ (k - (v.lw - 1)) (by omega)]
  simp

theorem setBit_fits {v : Variant} {w : Word} (hw : Fits v w) {k : Nat} (hk : k < v.ws) (b : Bool) : Fits v (setBit w k b) := by
  rw [Fits, lt_ws_iff] at hw ⊢
  intro n hn
  rw [getLsbD_setBit, if_neg (by omega), hw n hn]

/-- Both words of an accumulator are words of the variant. -/
def KeyBitMap.FitsIn (v : Variant) (m : KeyBitMap) : Prop := Fits v m.acc ∧ Fits v m.accv

theorem KeyBitMap.FitsIn.write {v : Variant} {m : KeyBitMap} (hm : m.FitsIn v) {k : Nat} (hk : k < v.ws) (b : Bool) :
    (m.write k b).FitsIn v :=
  ⟨setBit_fits hm.1 hk b, setBit_fits hm.2 hk true⟩

/-- A trial of the variant `w` keeps the widths of any variant that is no narrower. -/
theorem recordTrial_fits {v w : Variant} (hle : w.ws ≤ v.ws) {j : Nat} (hj : targetB j < w.ws) (c cf : Block) {m : KeyBitMap}
    (hm : m.FitsIn v) : (recordTrial w j c cf m).FitsIn v :=
  (hm.write (lt_of_lt_of_le (targetA_lt w j) hle) _).write (lt_of_lt_of_le hj hle) _

theorem keyWords_fits (v : Variant) (key : KeyBits) : KeyRegFits v (keyWords v key) := keyRegBefore_fits v key 0

/-! ### The accumulator (R37) -/

/-- A bit not recovered is zero. -/
def KeyBitMap.ZeroUnlessRecovered (m : KeyBitMap) : Prop := ∀ k, k < 32 → m.accv.getLsbD k = false → m.acc.getLsbD k = false

theorem accumulatorCoherent_iff (s : State) : AccumulatorCoherent s ↔ s.keyBitMap.ZeroUnlessRecovered := Iff.rfl

theorem KeyBitMap.ZeroUnlessRecovered.write {m : KeyBitMap} (hm : m.ZeroUnlessRecovered) (n : Nat) (b : Bool) :
    (m.write n b).ZeroUnlessRecovered := by
  intro k hk hset
  simp only [KeyBitMap.write, getLsbD_setBit] at hset ⊢
  split_ifs at hset ⊢
  exact hm k hk hset

theorem dispatchOf_keyBitMap (i : Instr) (v : Variant) (s : State) :
    (dispatchOf i v s).keyBitMap = s.keyBitMap ∨ (dispatchOf i v s).keyBitMap = { acc := 0#32, accv := 0#32 } := by
  cases i with
  | atk => exact .inr rfl
  | enc | dec | kexp => exact .inl rfl

/-- What a micro-step does to the accumulator: nothing, or it empties it, or it records a trial. -/
theorem Transition.keyBitMap {i : Instr} {v : Variant} {s t : State} (h : Transition i v s t) :
    t.keyBitMap = s.keyBitMap ∨ t.keyBitMap = { acc := 0#32, accv := 0#32 } ∨
      (s.phase = .arec ∧ targetB s.j.toNat < v.ws ∧ t.keyBitMap = arecMap v s) := by
  cases h with
  | ksRound | encRound | encLast | decRound | decLast | aencRound | aencLast => exact .inl rfl
  | ksLast =>
    rcases dispatchOf_keyBitMap i v (ksRoundWrites v s) with heq | heq
    · exact .inl heq
    · exact .inr (.inl heq)
  | arecNext hp hbit | arecLast hp hbit => exact .inr (.inr ⟨hp, hbit, rfl⟩)

theorem Transition.accumulatorCoherent {i : Instr} {v : Variant} {s t : State} (h : Transition i v s t)
    (hs : AccumulatorCoherent s) : AccumulatorCoherent t := by
  rw [accumulatorCoherent_iff] at hs ⊢
  rcases h.keyBitMap with heq | heq | ⟨-, -, heq⟩ <;> rw [heq]
  · exact hs
  · exact fun k _ _ => BitVec.getLsbD_zero
  · exact (hs.write _ _).write _ _

/-! ### Phases and counters (R35, R36, R41, R222) -/

section
variable {v : Variant} {s : State}

theorem countersInRange_ks (hp : s.phase = .ks) : CountersInRange v s ↔ s.i.toNat < v.rc := by
  simp only [CountersInRange, hp]

theorem countersInRange_enc (hp : s.phase = .enc) : CountersInRange v s ↔ s.i.toNat < v.rc := by
  simp only [CountersInRange, hp]

theorem countersInRange_dec (hp : s.phase = .dec) : CountersInRange v s ↔ s.i.toNat < v.rc := by
  simp only [CountersInRange, hp]

theorem countersInRange_aenc (hp : s.phase = .aenc) : CountersInRange v s ↔ s.i.toNat < v.rc ∧ s.j.toNat < v.ntrials := by
  simp only [CountersInRange, hp]

theorem countersInRange_arec (hp : s.phase = .arec) : CountersInRange v s ↔ s.j.toNat < v.ntrials := by
  simp only [CountersInRange, hp]

end

theorem roundIndex_lt {v : Variant} {k : Nat} (hk : k < v.rc) : (BitVec.ofNat 6 k).toNat < v.rc := by
  rwa [toNat_roundIndex v hk]

theorem trialIndex_lt {v : Variant} {k : Nat} (hk : k < v.ntrials) : (BitVec.ofNat 5 k).toNat < v.ntrials := by
  rwa [toNat_trialIndex v hk]

/-- Whatever the phase, a new round index in range keeps the counters in range. -/
theorem CountersInRange.withI {v : Variant} {s : State} (hc : CountersInRange v s) {k : Nat} (hk : k < v.rc) :
    CountersInRange v (s.withI k) := by
  have hi := roundIndex_lt hk
  unfold CountersInRange at hc ⊢
  cases hp : s.phase <;> simp only [withI_phase, withI_i, withI_j, hp] at hc ⊢
  case aenc => exact ⟨hi, hc.2⟩
  case arec => exact hc
  all_goals exact hi

/-- `AENC` and `AREC` are phases of the same command. -/
theorem passesThrough_aenc (i : Instr) : passesThrough i .aenc = passesThrough i .arec := by cases i <;> rfl

theorem phase_ne_of_passesThrough {i : Instr} {p : Phase} (h : passesThrough i p = true) : p ≠ .idle ∧ p ≠ .check := by
  constructor <;> rintro rfl <;> cases i <;> exact nomatch h

/-- Only `ATK` comes to `AREC`. -/
theorem op_of_passesThrough_arec {i : Instr} (h : passesThrough i .arec = true) : i.op = 3#8 := by
  cases i with
  | atk => rfl
  | enc | dec | kexp => exact nomatch h

/-- The bit that a trial flips lies in the word. -/
theorem trial_lt_ws {v : Variant} {s : State} (hp : s.phase = .aenc) (hc : CountersInRange v s) : s.j.toNat < v.ws := by
  have hj := ntrials_add_five_lt v ((countersInRange_aenc hp).1 hc).2
  omega

/-- The dispatch enters a phase of the command with its counters in range, or ends the command. -/
theorem dispatchOf_control (i : Instr) (v : Variant) (s : State) : (dispatchOf i v s).phase = .idle ∨
    (passesThrough i (dispatchOf i v s).phase = true ∧ CountersInRange v (dispatchOf i v s)) := by
  have hrc := rc_ge v
  have htrials : 0 < v.ntrials := by cases v <;> decide
  cases i with
  | kexp => exact .inl rfl
  | enc => exact .inr ⟨rfl, (countersInRange_enc rfl).2 (roundIndex_lt (k := 0) (by omega))⟩
  | dec => exact .inr ⟨rfl, (countersInRange_dec rfl).2 (roundIndex_lt (k := v.rc - 1) (by omega))⟩
  | atk => exact .inr ⟨rfl, (countersInRange_aenc rfl).2 ⟨roundIndex_lt (k := 0) (by omega), trialIndex_lt (k := 0) htrials⟩⟩

theorem checkLoads_counters (v : Variant) (s : State) : CountersInRange v (checkLoads v s) :=
  (countersInRange_ks rfl).2 (show 0 < v.rc from lt_of_lt_of_le (by decide) (rc_ge v))

/-- Past CHECK a command stays in its own phases with its counters in range until it ends. -/
theorem Transition.control {i : Instr} {v : Variant} {s t : State} (h : Transition i v s t)
    (hpass : passesThrough i s.phase = true) (hc : CountersInRange v s) :
    t.phase = .idle ∨ (passesThrough i t.phase = true ∧ CountersInRange v t) := by
  have hrc := rc_ge v
  cases h with
  | ksRound _ _ hmore => exact .inr ⟨hpass, CountersInRange.withI (s := ksRoundWrites v s) hc hmore⟩
  | ksLast => exact dispatchOf_control i v (ksRoundWrites v s)
  | encRound _ _ hmore | aencRound _ _ hmore => exact .inr ⟨hpass, CountersInRange.withI (s := s.withHalves _) hc hmore⟩
  | decRound hp =>
    have hi := (countersInRange_dec hp).1 hc
    exact .inr ⟨hpass, CountersInRange.withI (s := s.withHalves _) hc (by omega)⟩
  | aencLast hp =>
    have hj := ((countersInRange_aenc hp).1 hc).2
    exact .inr ⟨(passesThrough_aenc i).symm.trans (hp ▸ hpass), (countersInRange_arec rfl).2 hj⟩
  | arecNext hp _ hmore =>
    exact .inr ⟨(passesThrough_aenc i).trans (hp ▸ hpass),
      (countersInRange_aenc rfl).2 ⟨roundIndex_lt (k := 0) (by omega), trialIndex_lt hmore⟩⟩
  | encLast | decLast | arecLast => exact .inl rfl

/-- With its counters in range a command past CHECK has a micro-step: `I` names an entry of `RK` and key bit `J + 5` lies in the
word (R70, R187). -/
theorem exists_transition (i : Instr) {v : Variant} {s : State} (hidle : s.phase ≠ .idle) (hcheck : s.phase ≠ .check)
    (hc : CountersInRange v s) : ∃ t, Transition i v s t := by
  have hdepth : s.i.toNat < v.rc → s.i.toNat < Config.rkDepth := fun h => lt_of_lt_of_le h (rc_le v)
  cases hp : s.phase <;> simp only [CountersInRange, hp] at hc
  case idle => exact absurd hp hidle
  case check => exact absurd hp hcheck
  case ks =>
    by_cases hmore : s.i.toNat + 1 < v.rc
    · exact ⟨_, .ksRound hp (hdepth hc) hmore⟩
    · exact ⟨_, .ksLast hp (hdepth hc) hmore⟩
  case enc =>
    by_cases hmore : s.i.toNat + 1 < v.rc
    · exact ⟨_, .encRound hp (hdepth hc) hmore⟩
    · exact ⟨_, .encLast hp (hdepth hc) hmore⟩
  case dec =>
    by_cases hmore : 0 < s.i.toNat
    · exact ⟨_, .decRound hp (hdepth hc) hmore⟩
    · exact ⟨_, .decLast hp (hdepth hc) hmore⟩
  case aenc =>
    by_cases hmore : s.i.toNat + 1 < v.rc
    · exact ⟨_, .aencRound hp (hdepth hc.1) hmore⟩
    · exact ⟨_, .aencLast hp (hdepth hc.1) hmore⟩
  case arec =>
    by_cases hmore : s.j.toNat + 1 < v.ntrials
    · exact ⟨_, .arecNext hp (ntrials_add_five_lt v hc) hmore⟩
    · exact ⟨_, .arecLast hp (ntrials_add_five_lt v hc) hmore⟩

/-! ### Widths of a running command (R44) -/

section
variable {v : Variant} {s : State}

theorem widthsInRange_ks (hp : s.phase = .ks) : WidthsInRange v s ↔ ScheduleRegsFit v s ∧ RoundKeysFit v s.i.toNat s := by
  simp only [WidthsInRange, hp]

theorem widthsInRange_enc (hp : s.phase = .enc) :
    WidthsInRange v s ↔ ScheduleRegsFit v s ∧ RoundKeysFit v v.rc s ∧ HalvesFit v s.halves := by
  simp only [WidthsInRange, hp]

theorem widthsInRange_dec (hp : s.phase = .dec) :
    WidthsInRange v s ↔ ScheduleRegsFit v s ∧ RoundKeysFit v v.rc s ∧ HalvesFit v s.halves := by
  simp only [WidthsInRange, hp]

theorem widthsInRange_aenc (hp : s.phase = .aenc) :
    WidthsInRange v s ↔ ScheduleRegsFit v s ∧ RoundKeysFit v v.rc s ∧ HalvesFit v s.halves ∧ s.keyBitMap.FitsIn v ∧
      (0 < s.j.toNat → s.cf.toNat < 2 ^ v.bs) := by
  simp only [WidthsInRange, hp, KeyBitMap.FitsIn, State.keyBitMap, and_assoc]

theorem widthsInRange_arec (hp : s.phase = .arec) :
    WidthsInRange v s ↔ ScheduleRegsFit v s ∧ RoundKeysFit v v.rc s ∧ HalvesFit v s.halves ∧ s.keyBitMap.FitsIn v ∧
      s.cf.toNat < 2 ^ v.bs := by
  simp only [WidthsInRange, hp, KeyBitMap.FitsIn, State.keyBitMap, and_assoc]

/-- A KS micro-step keeps the key register and the window in range and adds one entry of the store to those in range. -/
theorem ksRoundWrites_widths (hi : s.i.toNat < Config.rkDepth) (hsched : ScheduleRegsFit v s) (hrk : RoundKeysFit v s.i.toNat s) :
    ScheduleRegsFit v (ksRoundWrites v s) ∧ RoundKeysFit v (s.i.toNat + 1) (ksRoundWrites v s) := by
  refine ⟨⟨ksRound_fits hsched.1 _, lfsrStep_lt v le_rfl hsched.2⟩, fun k hk => ?_⟩
  rw [rkAt_ksRoundWrites]
  split_ifs with hstored
  · exact hsched.1.1
  · exact hrk k (by omega)

theorem checkLoads_widths (v : Variant) (s : State) : WidthsInRange v (checkLoads v s) :=
  (widthsInRange_ks rfl).2 ⟨⟨keyWords_fits v s.key, lfsrLoad_lt v⟩, fun k hk => absurd hk (Nat.not_lt_zero k)⟩

end

/-- The dispatch loads halves that are in range, from a block that is. -/
theorem dispatchOf_widths {i : Instr} {v : Variant} {s : State} (hfit : operandsFit i v s = true)
    (hsched : ScheduleRegsFit v s) (hrk : RoundKeysFit v v.rc s) :
    WidthsInRange v (dispatchOf i v s) ∧ ((dispatchOf i v s).phase = .idle → WidthsAtEnd v (dispatchOf i v s) i) := by
  obtain ⟨-, hdin, -⟩ := (operandsFit_iff i v s).1 hfit
  cases i with
  | kexp => exact ⟨trivial, fun _ => ⟨hsched, hrk⟩⟩
  | enc =>
    have hhalves := split_fits (hdin (by simp [Instr.op]))
    exact ⟨(widthsInRange_enc rfl).2 ⟨hsched, hrk, hhalves⟩, Phase.noConfusion⟩
  | dec =>
    have hhalves := split_fits (hdin (by simp [Instr.op]))
    exact ⟨(widthsInRange_dec rfl).2 ⟨hsched, hrk, hhalves⟩, Phase.noConfusion⟩
  | atk =>
    have hhalves := split_fits (hdin (by simp [Instr.op]))
    exact ⟨(widthsInRange_aenc rfl).2 ⟨hsched, hrk, hhalves, ⟨zero_fits v, zero_fits v⟩, fun hj => absurd hj (Nat.lt_irrefl 0)⟩,
      Phase.noConfusion⟩

section
variable {v : Variant} {s : State}

theorem encHalves_fits (hp : s.phase = .enc) (hc : CountersInRange v s) (hw : WidthsInRange v s) :
    HalvesFit v (encHalves v s) := by
  obtain ⟨-, hrk, hhalves⟩ := (widthsInRange_enc hp).1 hw
  exact fwd_fits hhalves (hrk _ ((countersInRange_enc hp).1 hc))

theorem decHalves_fits (hp : s.phase = .dec) (hc : CountersInRange v s) (hw : WidthsInRange v s) :
    HalvesFit v (decHalves v s) := by
  obtain ⟨-, hrk, hhalves⟩ := (widthsInRange_dec hp).1 hw
  exact inv_fits hhalves (hrk _ ((countersInRange_dec hp).1 hc))

theorem aencHalves_fits (hp : s.phase = .aenc) (hc : CountersInRange v s) (hw : WidthsInRange v s) :
    HalvesFit v (aencHalves v s) := by
  obtain ⟨-, hrk, hhalves, -⟩ := (widthsInRange_aenc hp).1 hw
  obtain ⟨hi, -⟩ := (countersInRange_aenc hp).1 hc
  exact fwd_fits (faultHook_fits hhalves (trial_lt_ws hp hc) _) (hrk _ hi)

/-- Past KS no width depends on the round index, so a round with new halves in range keeps them all. -/
theorem WidthsInRange.round (hw : WidthsInRange v s) (hks : s.phase ≠ .ks) {h : Halves} (hh : HalvesFit v h) (k : Nat) :
    WidthsInRange v ((s.withHalves h).withI k) := by
  unfold WidthsInRange at hw ⊢
  cases hp : s.phase <;> simp only [withI_phase, withHalves_phase, hp] at hw ⊢
  case ks => exact absurd hp hks
  case enc | dec =>
    obtain ⟨hsched, hrk, -⟩ := hw
    exact ⟨hsched, hrk, hh⟩
  case aenc | arec =>
    obtain ⟨hsched, hrk, -, hrest⟩ := hw
    exact ⟨hsched, hrk, hh, hrest⟩

end

/-- A running command keeps its widths, and they hold at its end. -/
theorem Transition.widths {i : Instr} {v : Variant} {s t : State} (h : Transition i v s t)
    (hpass : passesThrough i s.phase = true) (hc : CountersInRange v s) (hfit : operandsFit i v s = true)
    (hw : WidthsInRange v s) : WidthsInRange v t ∧ (t.phase = .idle → WidthsAtEnd v t i) := by
  cases h with
  | ksRound hp hdepth hmore =>
    obtain ⟨hsched, hrk⟩ := (widthsInRange_ks hp).1 hw
    have hwrites := ksRoundWrites_widths hdepth hsched hrk
    have hp' : ((ksRoundWrites v s).withI (s.i.toNat + 1)).phase = .ks := hp
    rw [widthsInRange_ks hp', withI_i, toNat_roundIndex v hmore]
    exact ⟨hwrites, fun hidle => nomatch hp'.symm.trans hidle⟩
  | ksLast hp hdepth hlast =>
    obtain ⟨hsched, hrk⟩ := (widthsInRange_ks hp).1 hw
    obtain ⟨hsched', hrk'⟩ := ksRoundWrites_widths hdepth hsched hrk
    have hi := (countersInRange_ks hp).1 hc
    rw [show s.i.toNat + 1 = v.rc by omega] at hrk'
    have hfit' : operandsFit i v (ksRoundWrites v s) = true :=
      ((ksRoundWrites_sameOperands v s).operandsFit_eq i v).trans hfit
    exact dispatchOf_widths hfit' hsched' hrk'
  | encRound hp =>
    exact ⟨hw.round (by simp [hp]) (encHalves_fits hp hc hw) _, fun hidle => nomatch hp.symm.trans hidle⟩
  | decRound hp =>
    exact ⟨hw.round (by simp [hp]) (decHalves_fits hp hc hw) _, fun hidle => nomatch hp.symm.trans hidle⟩
  | aencRound hp =>
    exact ⟨hw.round (by simp [hp]) (aencHalves_fits hp hc hw) _, fun hidle => nomatch hp.symm.trans hidle⟩
  | encLast hp =>
    obtain ⟨hsched, hrk, -⟩ := (widthsInRange_enc hp).1 hw
    have hnew := encHalves_fits hp hc hw
    cases i with
    | enc => exact ⟨trivial, fun _ => ⟨hsched, hrk, hnew, join_lt hnew⟩⟩
    | dec | atk | kexp => simp [passesThrough, hp] at hpass
  | decLast hp =>
    obtain ⟨hsched, hrk, -⟩ := (widthsInRange_dec hp).1 hw
    have hnew := decHalves_fits hp hc hw
    cases i with
    | dec => exact ⟨trivial, fun _ => ⟨hsched, hrk, hnew, join_lt hnew⟩⟩
    | enc | atk | kexp => simp [passesThrough, hp] at hpass
  | aencLast hp =>
    obtain ⟨hsched, hrk, -, hmap, -⟩ := (widthsInRange_aenc hp).1 hw
    have hnew := aencHalves_fits hp hc hw
    exact ⟨(widthsInRange_arec rfl).2 ⟨hsched, hrk, hnew, hmap, join_lt hnew⟩, Phase.noConfusion⟩
  | arecNext hp hbit =>
    obtain ⟨hsched, hrk, -, hmap, hcf⟩ := (widthsInRange_arec hp).1 hw
    obtain ⟨-, hdin, -⟩ := (operandsFit_iff i v s).1 hfit
    have hop : i.op = 3#8 := op_of_passesThrough_arec (hp ▸ hpass)
    have hhalves := split_fits (hdin (by rw [hop]; decide))
    have hmap' := recordTrial_fits le_rfl hbit s.gct s.cf hmap
    exact ⟨(widthsInRange_aenc rfl).2 ⟨hsched, hrk, hhalves, hmap', fun _ => hcf⟩, Phase.noConfusion⟩
  | arecLast hp hbit =>
    obtain ⟨hsched, hrk, hhalves, hmap, hcf⟩ := (widthsInRange_arec hp).1 hw
    obtain ⟨hacc, haccv⟩ := recordTrial_fits le_rfl hbit s.gct s.cf hmap
    cases i with
    | atk => exact ⟨trivial, fun _ => ⟨hsched, hrk, hhalves, hacc, haccv, hcf, hacc⟩⟩
    | enc | dec | kexp => simp [passesThrough, hp] at hpass

/-! ### A running command -/

/-- A running command goes on running, or it ends without error and leaves its widths. -/
theorem Running.transition {i : Instr} {v : Variant} {s t : State} (h : Running i v s) (htr : Transition i v s t) :
    (t.phase ≠ .idle ∧ t.status = s.status ∧ Running i v t) ∨
      (t.phase = .idle ∧ t.status = Status.ended 0#4 ∧ t.cmd = s.cmd ∧ WidthsAtEnd v t i) := by
  obtain ⟨hdecoded, hsupported, hfit, hpass, hc, hw⟩ := h
  have hops := htr.sameOperands
  obtain ⟨hw', hend⟩ := htr.widths hpass hc hfit hw
  rcases htr.results with ⟨hphase, hstatus, -, -⟩ | ⟨hphase, hstatus⟩
  · obtain ⟨hpass', hc'⟩ := (htr.control hpass hc).resolve_left hphase
    exact .inl ⟨hphase, hstatus, hops.cmd ▸ hdecoded, hsupported, (hops.operandsFit_eq i v).trans hfit, hpass', hc', hw'⟩
  · exact .inr ⟨hphase, hstatus, hops.cmd, hend hphase⟩

/-- A command whose checks pass runs. -/
theorem running_checkLoads {i : Instr} {v : Variant} {s : State} (hd : decode s.cmd = some i)
    (hv : lookupVariant i.bs i.ks = some v) (hfit : operandsFit i v s = true) : Running i v (checkLoads v s) where
  decoded := hd
  supported := hv
  operands := ((checkLoads_sameOperands v s).operandsFit_eq i v).trans hfit
  phase := by cases i <;> rfl
  counters := checkLoads_counters v s
  widths := checkLoads_widths v s

/-- The running command is the one in `CMD`. -/
theorem Running.unique {i i' : Instr} {v v' : Variant} {s : State} (h : Running i v s) (hd : decode s.cmd = some i')
    (hv : lookupVariant i'.bs i'.ks = some v') : i' = i ∧ v' = v := by
  obtain rfl : i' = i := Option.some.inj (hd.symm.trans h.decoded)
  exact ⟨rfl, Option.some.inj (hv.symm.trans h.supported)⟩

theorem Running.withHost {i : Instr} {v : Variant} {s : State} (h : Running i v s) (a : HostAgent) :
    Running i v { s with host := a } := by
  have hfit : operandsFit i v { s with host := a } = operandsFit i v s := operandsFit_congr i v rfl rfl rfl
  exact ⟨h.decoded, h.supported, hfit.trans h.operands, h.phase, h.counters, h.widths⟩

theorem Running.phase_ne {i : Instr} {v : Variant} {s : State} (h : Running i v s) : s.phase ≠ .idle ∧ s.phase ≠ .check :=
  phase_ne_of_passesThrough h.phase

/-! ### Coherent states -/

theorem Coherent.withHost {s : State} (h : Coherent s) (a : HostAgent) : Coherent { s with host := a } := by
  obtain ⟨hstatus, hacc, hended, hidle | hcheck | ⟨i, v, hrun⟩⟩ := h
  · exact ⟨hstatus, hacc, hended, .inl hidle⟩
  · exact ⟨hstatus, hacc, hended, .inr (.inl hcheck)⟩
  · exact ⟨hstatus, hacc, hended, .inr (.inr ⟨i, v, hrun.withHost a⟩)⟩

/-- A coherent engine that is not busy is idle. -/
theorem Coherent.idle {s : State} (h : Coherent s) (hb : s.status.busy = false) : s.phase = .idle := by
  obtain ⟨⟨hbusy, -⟩, -⟩ := h
  by_contra hp
  simp [hbusy.2 hp] at hb

/-- One that is busy with a legal command past CHECK runs it. -/
theorem Coherent.running {i : Instr} {v : Variant} {s : State} (h : Coherent s) (hb : s.status.busy = true)
    (hcheck : s.phase ≠ .check) (hd : decode s.cmd = some i) (hv : lookupVariant i.bs i.ks = some v) : Running i v s := by
  obtain ⟨hstatus, -, -, hidle | hcheck' | ⟨i', v', hrun⟩⟩ := h
  · exact absurd hidle (hstatus.1.1 hb)
  · exact absurd hcheck' hcheck
  · obtain ⟨rfl, rfl⟩ := hrun.unique hd hv
    exact hrun

/-- Ending with an error keeps the invariant. -/
theorem coherent_finish {s : State} (h : Coherent s) {e : BitVec 4} (he : e ≠ 0#4) (hle : e.toNat ≤ 3) :
    Coherent (finish e s) := by
  obtain ⟨-, hacc, -⟩ := h
  have hended : StatusCoherent (finish e s) := ⟨by simp [Status.ended], by simp [Status.ended], fun _ => rfl, hle⟩
  exact ⟨hended, hacc, endedInRange_of_err he, .inl rfl⟩

/-- `STATUS` stays coherent while the command goes on. -/
theorem statusCoherent_of_eq {s t : State} (h : StatusCoherent s) (hs : s.phase ≠ .idle) (ht : t.phase ≠ .idle)
    (heq : t.status = s.status) : StatusCoherent t := by
  obtain ⟨hbusy, hrest⟩ := h
  unfold StatusCoherent
  rw [heq]
  exact ⟨⟨fun _ => ht, fun _ => hbusy.2 hs⟩, hrest⟩

/-- Every engine turn keeps the invariant. -/
theorem coherent_engineTurn {s t : State} (h : Coherent s) (he : engineTurn s = .next t) : Coherent t := by
  rcases engineTurn_next he with ⟨-, rfl⟩ | ⟨hb, i, hd, hexec⟩ | ⟨-, -, -, rfl⟩
  · exact h
  · rcases exec_next_inversion hexec with ⟨-, e, hne, hle, rfl⟩ | ⟨v, hv, hp, hfit, rfl⟩ | ⟨v, hv, hp, htr⟩
    · exact coherent_finish h hne hle
    · obtain ⟨hstatus, hacc, -, -⟩ := h
      exact ⟨statusCoherent_of_eq hstatus (by simp [hp]) Phase.noConfusion rfl, hacc, endedInRange_of_phase Phase.noConfusion,
        .inr (.inr ⟨i, v, running_checkLoads hd hv hfit⟩)⟩
    · have hrun := h.running hb hp hd hv
      obtain ⟨hstatus, hacc, -, -⟩ := h
      have hacc' := htr.accumulatorCoherent hacc
      rcases hrun.transition htr with ⟨hphase, heq, hrun'⟩ | ⟨hphase, heq, hcmd, hwidths⟩
      · exact ⟨statusCoherent_of_eq hstatus hrun.phase_ne.1 hphase heq, hacc', endedInRange_of_phase hphase,
          .inr (.inr ⟨i, v, hrun'⟩)⟩
      · exact ⟨by simp [StatusCoherent, heq, hphase, Status.ended], hacc',
          fun _ _ _ => ⟨i, v, hcmd ▸ hd, hv, hwidths⟩, .inl hphase⟩
  · exact coherent_finish h (by decide) (by decide)

/-- A host write finds the engine idle: it issues a command, or changes an operand that no command is using. -/
theorem coherent_writeReg {s : State} (h : Coherent s) (hb : s.status.busy = false) (x : Nat) (g : Reg) :
    Coherent (writeReg s x g) := by
  have hidle := h.idle hb
  obtain ⟨hstatus, hacc, hended, -⟩ := h
  cases g with
  | cmd =>
    have hissued : StatusCoherent (issue (BitVec.ofNat 32 x) s) := by simp [StatusCoherent, Status.issued]
    exact ⟨hissued, hacc, endedInRange_of_phase Phase.noConfusion, .inr (.inl rfl)⟩
  | key | din | gct | status | dout | rkout | rk => exact ⟨hstatus, hacc, hended, .inl hidle⟩

theorem coherent_resetEngine (s : State) : Coherent (resetEngine s) :=
  ⟨by simp [StatusCoherent, State.reset], fun _ _ _ => BitVec.getLsbD_zero, fun _ hdone _ => (nomatch hdone), .inl rfl⟩

/-- Settles O47: the engine's turn, a write while not busy and reset keep the invariant, which does not look at the host agent. -/
theorem everyStepKeepsCoherence : Obligations.EveryStepKeepsCoherence := by
  intro s t hs h
  exact step_next_induction (P := Coherent) (Q := Coherent) (fun _ a h => h.withHost a) (fun _ h => h)
    (fun _ _ h he => coherent_engineTurn h he) (fun _ x g h hb => coherent_writeReg h hb x g) coherent_resetEngine hs h

/-- Settles O46: nothing is running after reset. -/
theorem resetIsCoherent : Obligations.ResetIsCoherent :=
  ⟨coherent_resetEngine State.reset, fun _ _ h => absurd rfl h.phase_ne.1⟩

/-! ### No faults (R212, R226) -/

theorem Coherent.exists_engineTurn {s : State} (h : Coherent s) : ∃ t, engineTurn s = .next t := by
  cases hb : s.status.busy with
  | false => exact ⟨s, engineTurn_idle hb⟩
  | true =>
    obtain ⟨hstatus, -, -, hidle | hcheck | ⟨i, v, hrun⟩⟩ := h
    · exact absurd hidle (hstatus.1.1 hb)
    · cases hd : decode s.cmd with
      | none => exact ⟨_, engineTurn_illegal hb hcheck hd⟩
      | some i => exact ⟨_, (engineTurn_command hb hd).trans (exec_check i s hcheck)⟩
    · obtain ⟨t, htr⟩ := exists_transition i hrun.phase_ne.1 hrun.phase_ne.2 hrun.counters
      exact ⟨t, (engineTurn_command hb hrun.decoded).trans (exec_of_transition hrun.supported htr)⟩

/-- A coherent state has a next one, unless the host makes an access that has no meaning. -/
theorem Coherent.step_next_or_refused {s : State} (h : Coherent s) : (∃ t, step s = .next t) ∨
    ((∃ e, step s = .refused e) ∧ ∃ n x rest, s.host.script = .read n :: rest ∨ s.host.script = .write n x :: rest) := by
  cases hq : s.host.script with
  | nil => exact .inl (step_of_nil hq ▸ h.exists_engineTurn)
  | cons turn rest =>
    cases turn with
    | engine => exact .inl (step_of_engine hq ▸ (h.withHost _).exists_engineTurn)
    | read n =>
      rw [step_of_read hq, hostRead]
      cases Reg.ofNumber n with
      | some g => exact .inl ⟨_, rfl⟩
      | none => exact .inr ⟨⟨_, rfl⟩, n, 0, rest, .inl rfl⟩
    | write n x =>
      rw [step_of_write hq, hostWrite]
      split_ifs
      · exact .inl ⟨_, rfl⟩
      · cases Reg.ofNumber n with
        | none => exact .inr ⟨⟨_, rfl⟩, n, x, rest, .inr rfl⟩
        | some g =>
          dsimp only
          split_ifs
          · exact .inl ⟨_, rfl⟩
          · exact .inr ⟨⟨_, rfl⟩, n, x, rest, .inr rfl⟩
    | wait =>
      rw [step_of_wait hq, waitTurn]
      split_ifs
      · exact .inl ⟨_, rfl⟩
      · exact .inl h.exists_engineTurn
    | reset => exact .inl ⟨_, step_of_reset hq⟩

/-- Settles O48. -/
theorem coherentMachineNeverFaults : Obligations.CoherentMachineNeverFaults := by
  intro s h
  refine ⟨fun e he => ?_, fun e he => ?_, fun _ => h.exists_engineTurn⟩
  · rcases h.step_next_or_refused with ⟨t, ht⟩ | ⟨⟨e', he'⟩, -⟩
    · exact nomatch ht.symm.trans he
    · exact nomatch he'.symm.trans he
  · rcases h.step_next_or_refused with ⟨t, ht⟩ | ⟨-, hhost⟩
    · exact nomatch ht.symm.trans he
    · exact hhost

end Sys2Proof.Machine
end

section
/-! PROOFS. R44 with no proviso: what a command of the variant `w` computes from words of a variant `v` that is no narrower are
words of `v` (10_state.md R44, 41_round_function.md R126). -/

namespace Sys2Proof.Machine

/-! ### A narrower variant inside a wider one -/

section
variable {v w : Variant} (hle : w.ws ≤ v.ws)
include hle

theorem Fits.mono {x : Word} (hx : Fits w x) : Fits v x := lt_of_lt_of_le hx (Nat.pow_le_pow_right (by decide) hle)

theorem HalvesFit.mono {h : Halves} (hh : HalvesFit w h) : HalvesFit v h := ⟨Fits.mono hle hh.1, Fits.mono hle hh.2⟩

theorem KeyRegFits.mono {t : KeyReg} (ht : KeyRegFits w t) : KeyRegFits v t := by
  obtain ⟨h0, h1, h2, h3⟩ := ht
  exact ⟨Fits.mono hle h0, Fits.mono hle h1, Fits.mono hle h2, Fits.mono hle h3⟩

theorem lw_mono : w.lw ≤ v.lw := by
  cases w <;> cases v <;> simp at hle ⊢

theorem ksRound_fits_of_le {t : KeyReg} (ht : KeyRegFits v t) (z : Bool) : KeyRegFits v (ksRound w z t) := by
  obtain ⟨h0, h1, h2, h3⟩ := ht
  exact ⟨h1, h2, h3, xor_lt (xor_lt h0 (Fits.mono hle (f_fits w t.t1))) (Fits.mono hle (roundConst_fits w z))⟩

theorem fwd_fits_of_le {h : Halves} (hh : HalvesFit v h) {k : Word} (hk : Fits v k) : HalvesFit v (fwd w h k) :=
  ⟨xor_lt (xor_lt hh.2 (Fits.mono hle (f_fits w h.left))) hk, hh.1⟩

theorem inv_fits_of_le {h : Halves} (hh : HalvesFit v h) {k : Word} (hk : Fits v k) : HalvesFit v (inv w h k) :=
  ⟨hh.2, xor_lt (xor_lt hh.1 (Fits.mono hle (f_fits w h.right))) hk⟩

theorem faultHook_fits_of_le {h : Halves} (hh : HalvesFit v h) {j : Nat} (hj : j < w.ws) (n : Nat) :
    HalvesFit v (faultHook w n j h) := by
  unfold faultHook
  split_ifs
  · exact ⟨flip_fits hh.1 (lt_of_lt_of_le hj hle), hh.2⟩
  · exact hh

/-- The left half is shifted up by no more than the wider variant's word size. -/
theorem join_lt_of_le {h : Halves} (hh : HalvesFit v h) : (join w h).toNat < 2 ^ v.bs := by
  refine (toNat_lt_two_pow_iff _ _).2 fun n hn => ?_
  have hbs := bs_eq v
  have hleft := (lt_ws_iff v h.left).1 hh.1 (n - w.ws) (by omega)
  have hright := (lt_ws_iff v h.right).1 hh.2 n (by omega)
  simp [join, hleft, hright]

end

/-! ### Every step (R44) -/

theorem withinWidths_reset (v : Variant) : WithinWidths v State.reset := by
  have hzero := zero_fits v
  have hblock : (0#64).toNat < 2 ^ v.bs := Nat.two_pow_pos _
  refine ⟨⟨⟨hzero, hzero, hzero, hzero⟩, Nat.two_pow_pos _⟩, fun k _ => ?_, ⟨hzero, hzero⟩, hzero, hzero, hblock, hblock, hzero⟩
  rw [rkAt_reset]
  exact hzero

section
variable {i : Instr} {v w : Variant} {s t : State} (hle : w.ws ≤ v.ws)
include hle

theorem withinWidths_ksRoundWrites (hs : WithinWidths v s) : WithinWidths v (ksRoundWrites w s) := by
  obtain ⟨⟨hreg, hwin⟩, hrk, hrest⟩ := hs
  refine ⟨⟨ksRound_fits_of_le hle hreg _, lfsrStep_lt w (lw_mono hle) hwin⟩, fun k hk => ?_, hrest⟩
  rw [rkAt_ksRoundWrites]
  split_ifs
  · exact hreg.1
  · exact hrk k hk

theorem withinWidths_checkLoads (hs : WithinWidths v s) : WithinWidths v (checkLoads w s) := by
  obtain ⟨-, hrest⟩ := hs
  exact ⟨⟨KeyRegFits.mono hle (keyWords_fits w s.key),
    lt_of_lt_of_le (lfsrLoad_lt w) (Nat.pow_le_pow_right (by decide) (lw_mono hle))⟩, hrest⟩

theorem withinWidths_dispatchOf (hfit : operandsFit i w s = true) (hs : WithinWidths v s) :
    WithinWidths v (dispatchOf i w s) := by
  obtain ⟨hsched, hrk, -, hacc, haccv, hrest⟩ := id hs
  obtain ⟨-, hdin, -⟩ := (operandsFit_iff i w s).1 hfit
  have hhalves : i.op ≠ 4#8 → HalvesFit v (split w s.din) := fun hop => HalvesFit.mono hle (split_fits (hdin hop))
  cases i with
  | kexp => exact hs
  | enc | dec => exact ⟨hsched, hrk, hhalves (by simp [Instr.op]), hacc, haccv, hrest⟩
  | atk => exact ⟨hsched, hrk, hhalves (by simp [Instr.op]), zero_fits v, zero_fits v, hrest⟩

/-- Every branch past CHECK keeps the widths of a variant that is no narrower than the command's. -/
theorem Transition.withinWidths (h : Transition i w s t) (hrun : Running i w s) (hs : WithinWidths v s) :
    WithinWidths v t := by
  obtain ⟨hsched, hrk, hhalves, hacc, haccv, hcf, hdout, hrkout⟩ := id hs
  cases h with
  | ksRound => exact withinWidths_ksRoundWrites hle hs
  | ksLast =>
    have hfit := ((ksRoundWrites_sameOperands w s).operandsFit_eq i w).trans hrun.operands
    exact withinWidths_dispatchOf hle hfit (withinWidths_ksRoundWrites hle hs)
  | encRound _ hdepth =>
    exact ⟨hsched, hrk, fwd_fits_of_le hle hhalves (hrk _ hdepth), hacc, haccv, hcf, hdout, hrkout⟩
  | encLast _ hdepth =>
    have hnew := fwd_fits_of_le hle hhalves (hrk _ hdepth)
    exact ⟨hsched, hrk, hnew, hacc, haccv, hcf, join_lt_of_le hle hnew, hrkout⟩
  | decRound _ hdepth =>
    exact ⟨hsched, hrk, inv_fits_of_le hle hhalves (hrk _ hdepth), hacc, haccv, hcf, hdout, hrkout⟩
  | decLast _ hdepth =>
    have hnew := inv_fits_of_le hle hhalves (hrk _ hdepth)
    exact ⟨hsched, hrk, hnew, hacc, haccv, hcf, join_lt_of_le hle hnew, hrkout⟩
  | aencRound hp hdepth =>
    have hflip := faultHook_fits_of_le hle hhalves (trial_lt_ws hp hrun.counters) s.i.toNat
    have hnew := fwd_fits_of_le hle hflip (hrk _ hdepth)
    exact ⟨hsched, hrk, hnew, hacc, haccv, hcf, hdout, hrkout⟩
  | aencLast hp hdepth =>
    have hflip := faultHook_fits_of_le hle hhalves (trial_lt_ws hp hrun.counters) s.i.toNat
    have hnew := fwd_fits_of_le hle hflip (hrk _ hdepth)
    exact ⟨hsched, hrk, hnew, hacc, haccv, join_lt_of_le hle hnew, hdout, hrkout⟩
  | arecNext hp hbit =>
    obtain ⟨hacc', haccv'⟩ := recordTrial_fits (m := s.keyBitMap) hle hbit s.gct s.cf ⟨hacc, haccv⟩
    obtain ⟨-, hdin, -⟩ := (operandsFit_iff i w s).1 hrun.operands
    have hop : i.op = 3#8 := op_of_passesThrough_arec (hp ▸ hrun.phase)
    exact ⟨hsched, hrk, HalvesFit.mono hle (split_fits (hdin (by rw [hop]; decide))), hacc', haccv', hcf, hdout, hrkout⟩
  | arecLast _ hbit =>
    obtain ⟨hacc', haccv'⟩ := recordTrial_fits (m := s.keyBitMap) hle hbit s.gct s.cf ⟨hacc, haccv⟩
    exact ⟨hsched, hrk, hhalves, hacc', haccv', hcf, hdout, hacc'⟩

end

/-- The command that `CMD` spells, if its parameters are supported, is no wider than `v`. -/
def NoWiderCommand (v : Variant) (s : State) : Prop :=
  ∀ i w, decode s.cmd = some i → lookupVariant i.bs i.ks = some w → w.ws ≤ v.ws

/-- Every engine turn of such a command keeps the widths of `v`. -/
theorem withinWidths_engineTurn {v : Variant} {s t : State} (h : Coherent s) (hs : WithinWidths v s) (hcmd : NoWiderCommand v s)
    (he : engineTurn s = .next t) : WithinWidths v t := by
  rcases engineTurn_next he with ⟨-, rfl⟩ | ⟨hb, i, hd, hexec⟩ | ⟨-, -, -, rfl⟩
  · exact hs
  · rcases exec_next_inversion hexec with ⟨-, e, -, -, rfl⟩ | ⟨w, hw, -, -, rfl⟩ | ⟨w, hw, hp, htr⟩
    · exact hs
    · exact withinWidths_checkLoads (hcmd i w hd hw) hs
    · exact htr.withinWidths (hcmd i w hd hw) (h.running hb hp hd hw) hs
  · exact hs

/-- Settles O59: the host writes no register that R44 bounds, and the engine's turn is `withinWidths_engineTurn`. -/
theorem everyStepStaysWithinTheWidestCommand : Obligations.EveryStepStaysWithinTheWidestCommand := by
  intro v
  refine ⟨withinWidths_reset v, fun s t hc hs hcmd h => ?_⟩
  refine step_next_induction (P := fun s => Coherent s ∧ WithinWidths v s ∧ NoWiderCommand v s) (Q := WithinWidths v)
    ?_ (fun _ ⟨_, hs, _⟩ => hs) ?_ ?_ (fun _ => withinWidths_reset v) ⟨hc, hs, hcmd⟩ h
  · rintro s a ⟨hc, hs, hcmd⟩
    exact ⟨hc.withHost a, hs, hcmd⟩
  · rintro s t ⟨hc, hs, hcmd⟩ he
    exact withinWidths_engineTurn hc hs hcmd he
  · rintro s x g ⟨-, hs, -⟩ -
    cases g <;> exact hs

end Sys2Proof.Machine
end

section
/-! PROOFS. Every command from CHECK to its end: each micro-step keeps it on course (`OnCourse`) and takes one off the micro-steps
still to come, and the last one leaves its results (42_key_schedule.md R146, R147; 43_cipher_engine.md R162 to R166;
44_fault_attack_engine.md R193, R199; 45_command_sequencer.md R223 to R225). -/

namespace Sys2Proof.Machine

/-! ### On course, phase by phase -/

/-- The first `n` round keys are in the store (R146). -/
def Stored (v : Variant) (n : Nat) (s : State) : Prop := ∀ k, k < n → s.rkAt k = keySchedule v s.key k

section
variable {v : Variant} {s : State}

theorem onCourse_ks (hp : s.phase = .ks) : OnCourse v s ↔
    s.t = keyRegBefore v s.key s.i.toNat ∧ s.swin = lfsrWindow v s.i.toNat ∧ Stored v s.i.toNat s := by
  simp only [OnCourse, hp, Stored]

theorem onCourse_enc (hp : s.phase = .enc) : OnCourse v s ↔
    Stored v v.rc s ∧ s.halves = encRounds v (keySchedule v s.key) s.i.toNat (split v s.din) := by
  simp only [OnCourse, hp, Stored]

theorem onCourse_dec (hp : s.phase = .dec) : OnCourse v s ↔
    Stored v v.rc s ∧ decRounds v (keySchedule v s.key) (s.i.toNat + 1) s.halves =
      decRounds v (keySchedule v s.key) v.rc (split v s.din) := by
  simp only [OnCourse, hp, Stored]

theorem onCourse_aenc (hp : s.phase = .aenc) : OnCourse v s ↔
    Stored v v.rc s ∧ s.halves = faultedRounds v (keySchedule v s.key) s.j.toNat s.i.toNat (split v s.din) ∧
      s.keyBitMap = sessionMap v (keySchedule v s.key) s.din s.gct s.j.toNat := by
  simp only [OnCourse, hp, Stored]

theorem onCourse_arec (hp : s.phase = .arec) : OnCourse v s ↔
    Stored v v.rc s ∧ s.cf = faultedEncrypt v (keySchedule v s.key) s.j.toNat s.din ∧
      s.keyBitMap = sessionMap v (keySchedule v s.key) s.din s.gct s.j.toNat := by
  simp only [OnCourse, hp, Stored]

theorem onCourse_idle (hp : s.phase = .idle) : OnCourse v s := by
  simp only [OnCourse, hp]

theorem encHalves_onCourse (hp : s.phase = .enc) (hi : s.i.toNat < v.rc) (hc : OnCourse v s) :
    encHalves v s = encRounds v (keySchedule v s.key) (s.i.toNat + 1) (split v s.din) := by
  obtain ⟨hstored, hhalves⟩ := (onCourse_enc hp).1 hc
  rw [encHalves, hhalves, hstored _ hi, encRounds]

/-- The DEC rounds still to come after this one bring its halves to the same end. -/
theorem decHalves_onCourse (hp : s.phase = .dec) (hi : s.i.toNat < v.rc) (hc : OnCourse v s) :
    decRounds v (keySchedule v s.key) s.i.toNat (decHalves v s) =
      decRounds v (keySchedule v s.key) v.rc (split v s.din) := by
  obtain ⟨hstored, hrounds⟩ := (onCourse_dec hp).1 hc
  rw [← hrounds, decRounds, decHalves, hstored _ hi]

end

/-- The dispatch puts a command on course for its own phase once the whole schedule is stored. -/
theorem dispatchOf_onCourse (i : Instr) {v : Variant} {s : State} (hstored : Stored v v.rc s) :
    OnCourse v (dispatchOf i v s) := by
  have hrc := rc_ge v
  cases i with
  | kexp => exact onCourse_idle rfl
  | enc => exact (onCourse_enc rfl).2 ⟨hstored, rfl⟩
  | dec =>
    have hstart : (BitVec.ofNat 6 (v.rc - 1)).toNat + 1 = v.rc := by rw [toNat_roundIndex v (by omega)]; omega
    refine (onCourse_dec rfl).2 ⟨hstored, ?_⟩
    show decRounds v _ ((BitVec.ofNat 6 (v.rc - 1)).toNat + 1) _ = _
    rw [hstart]
    rfl
  | atk => exact (onCourse_aenc rfl).2 ⟨hstored, rfl, rfl⟩

section
variable {i : Instr} {v : Variant} {s t : State}

/-- R146, R166, R199: every branch past CHECK keeps the command on course. -/
theorem Transition.onCourse (h : Transition i v s t) (hc : CountersInRange v s) (hcourse : OnCourse v s) : OnCourse v t := by
  cases h with
  | ksRound hp _ hmore =>
    obtain ⟨ht, hwin, hstored⟩ := ksRoundWrites_onCourse hp ((countersInRange_ks hp).1 hc) hcourse
    have hp' : ((ksRoundWrites v s).withI (s.i.toNat + 1)).phase = .ks := hp
    rw [onCourse_ks hp', withI_i, toNat_roundIndex v hmore]
    exact ⟨ht, hwin, hstored⟩
  | ksLast hp _ hlast =>
    have hi := (countersInRange_ks hp).1 hc
    obtain ⟨-, -, hstored⟩ := ksRoundWrites_onCourse hp hi hcourse
    rw [show s.i.toNat + 1 = v.rc by omega] at hstored
    exact dispatchOf_onCourse i hstored
  | encRound hp _ hmore =>
    have hp' : ((s.withHalves (encHalves v s)).withI (s.i.toNat + 1)).phase = .enc := hp
    rw [onCourse_enc hp', withI_i, toNat_roundIndex v hmore]
    exact ⟨((onCourse_enc hp).1 hcourse).1, encHalves_onCourse hp ((countersInRange_enc hp).1 hc) hcourse⟩
  | decRound hp _ hmore =>
    have hi := (countersInRange_dec hp).1 hc
    have hp' : ((s.withHalves (decHalves v s)).withI (s.i.toNat - 1)).phase = .dec := hp
    rw [onCourse_dec hp', withI_i, toNat_roundIndex v (by omega), Nat.sub_add_cancel hmore]
    exact ⟨((onCourse_dec hp).1 hcourse).1, decHalves_onCourse hp hi hcourse⟩
  | aencRound hp _ hmore =>
    obtain ⟨hstored, -, hmap⟩ := (onCourse_aenc hp).1 hcourse
    have hp' : ((s.withHalves (aencHalves v s)).withI (s.i.toNat + 1)).phase = .aenc := hp
    rw [onCourse_aenc hp', withI_i, toNat_roundIndex v hmore]
    exact ⟨hstored, aencRound_onCourse hp ((countersInRange_aenc hp).1 hc).1 hcourse, hmap⟩
  | aencLast hp _ hlast =>
    obtain ⟨hstored, -, hmap⟩ := (onCourse_aenc hp).1 hcourse
    have hi := ((countersInRange_aenc hp).1 hc).1
    have hround := aencRound_onCourse hp hi hcourse
    rw [show s.i.toNat + 1 = v.rc by omega] at hround
    exact (onCourse_arec rfl).2 ⟨hstored, congrArg (join v) hround, hmap⟩
  | arecNext hp _ hmore =>
    obtain ⟨hstored, -, -⟩ := (onCourse_arec hp).1 hcourse
    have hmap := arecRecord_onCourse hp hcourse
    exact (startTrialAt_underWay (bs := 0) (ks := 0) (s := s.withKeyBitMap (arecMap v s)) hmore ⟨rfl, rfl, rfl, rfl, rfl⟩
      hstored hmap).1.course
  | encLast | decLast | arecLast => exact onCourse_idle rfl

end

theorem checkLoads_onCourse (v : Variant) (s : State) : OnCourse v (checkLoads v s) :=
  (onCourse_ks rfl).2 ⟨rfl, rfl, fun k hk => absurd hk (Nat.not_lt_zero k)⟩

/-! ### Every step (R146, R166, R199) -/

/-- In IDLE and CHECK no command runs. -/
theorem computesItsCommand_of_phase {s : State} (hp : s.phase = .idle ∨ s.phase = .check) : ComputesItsCommand s := by
  intro i v hrun
  obtain ⟨hidle, hcheck⟩ := hrun.phase_ne
  exact absurd hp (by simp [hidle, hcheck])

/-- One running command on course is enough: there is no other. -/
theorem computesItsCommand_of_onCourse {i : Instr} {v : Variant} {s : State} (hd : decode s.cmd = some i)
    (hv : lookupVariant i.bs i.ks = some v) (hcourse : OnCourse v s) : ComputesItsCommand s := by
  intro i' v' hrun
  obtain ⟨rfl, rfl⟩ := hrun.unique hd hv
  exact hcourse

theorem computesItsCommand_engineTurn {s t : State} (h : Coherent s) (hs : ComputesItsCommand s)
    (he : engineTurn s = .next t) : ComputesItsCommand t := by
  rcases engineTurn_next he with ⟨-, rfl⟩ | ⟨hb, i, hd, hexec⟩ | ⟨-, -, -, rfl⟩
  · exact hs
  · have hd' : decode t.cmd = some i := (exec_sameOperands hexec).cmd ▸ hd
    rcases exec_next_inversion hexec with ⟨-, e, -, -, rfl⟩ | ⟨v, hv, -, -, rfl⟩ | ⟨v, hv, hp, htr⟩
    · exact computesItsCommand_of_phase (.inl rfl)
    · exact computesItsCommand_of_onCourse hd' hv (checkLoads_onCourse v s)
    · have hrun := h.running hb hp hd hv
      exact computesItsCommand_of_onCourse hd' hv (htr.onCourse hrun.counters (hs i v hrun))
  · exact computesItsCommand_of_phase (.inl rfl)

/-- Settles O49: the engine's turn is `computesItsCommand_engineTurn`; a host write finds no command running, and neither does
reset leave one. -/
theorem everyStepStaysOnCourse : Obligations.EveryStepStaysOnCourse := by
  intro s t hc hs h
  refine step_next_induction (P := fun s => Coherent s ∧ ComputesItsCommand s) (Q := ComputesItsCommand)
    ?_ (fun _ ⟨_, hs⟩ => hs) (fun _ _ ⟨hc, hs⟩ he => computesItsCommand_engineTurn hc hs he) ?_
    (fun _ => computesItsCommand_of_phase (.inl rfl)) ⟨hc, hs⟩ h
  · rintro s a ⟨hc, hs⟩
    exact ⟨hc.withHost a, fun i v hrun => hs i v (hrun.withHost s.host)⟩
  · rintro s x g ⟨hc, -⟩ hb
    have hidle := hc.idle hb
    cases g with
    | cmd => exact computesItsCommand_of_phase (.inr rfl)
    | key | din | gct | status | dout | rkout | rk => exact computesItsCommand_of_phase (.inl hidle)

/-! ### What a command leaves at its end -/

/-- The result registers after the command `i`, issued in the state `s₀` (R147, R162, R163, R193). -/
def ResultsOf (v : Variant) (s₀ t : State) : Instr → Prop
  | .kexp _ _ => t.dout = s₀.dout ∧ t.rkout = s₀.rkout
  | .enc _ _ => t.dout = encrypt v (keySchedule v s₀.key) s₀.din ∧ t.rkout = s₀.rkout
  | .dec _ _ => t.dout = decrypt v (keySchedule v s₀.key) s₀.din ∧ t.rkout = s₀.rkout
  | .atk _ _ => t.dout = s₀.dout ∧ t.rkout = attackSession v s₀.din s₀.gct s₀.key

/-- The store and the results after the last micro-step. -/
theorem Transition.results_of_last {i : Instr} {v : Variant} {s t : State} (h : Transition i v s t)
    (hpass : passesThrough i s.phase = true) (hc : CountersInRange v s) (hcourse : OnCourse v s) (hend : t.phase = .idle) :
    Stored v v.rc t ∧ ResultsOf v s t i := by
  cases h with
  | ksRound hp | encRound hp | decRound hp | aencRound hp => exact nomatch hp.symm.trans hend
  | aencLast | arecNext => exact nomatch hend
  | ksLast hp _ hlast =>
    have hi := (countersInRange_ks hp).1 hc
    obtain ⟨-, -, hstored⟩ := ksRoundWrites_onCourse hp hi hcourse
    rw [show s.i.toNat + 1 = v.rc by omega] at hstored
    cases i with
    | kexp => exact ⟨hstored, rfl, rfl⟩
    | enc | dec | atk => exact nomatch hend
  | encLast hp _ hlast =>
    have hi := (countersInRange_enc hp).1 hc
    have hround := encHalves_onCourse hp hi hcourse
    rw [show s.i.toNat + 1 = v.rc by omega] at hround
    cases i with
    | enc => exact ⟨((onCourse_enc hp).1 hcourse).1, congrArg (join v) hround, rfl⟩
    | dec | atk | kexp => simp [passesThrough, hp] at hpass
  | decLast hp _ hlast =>
    have hround := decHalves_onCourse hp ((countersInRange_dec hp).1 hc) hcourse
    rw [show s.i.toNat = 0 by omega, decRounds] at hround
    cases i with
    | dec => exact ⟨((onCourse_dec hp).1 hcourse).1, congrArg (join v) hround, rfl⟩
    | enc | atk | kexp => simp [passesThrough, hp] at hpass
  | arecLast hp _ hlast =>
    have hj := (countersInRange_arec hp).1 hc
    have hmap := arecRecord_onCourse hp hcourse
    rw [show s.j.toNat + 1 = v.ntrials by omega] at hmap
    cases i with
    | atk => exact ⟨((onCourse_arec hp).1 hcourse).1, rfl, congrArg KeyBitMap.acc hmap⟩
    | enc | dec | kexp => simp [passesThrough, hp] at hpass

/-! ### How many micro-steps are left (R223) -/

/-- How many micro-steps a command past CHECK still takes. -/
def stepsLeft (i : Instr) (v : Variant) (s : State) : Nat :=
  match s.phase with
  | .ks => v.rc - s.i.toNat + (microSteps v i - (1 + v.rc))
  | .enc => v.rc - s.i.toNat
  | .dec => s.i.toNat + 1
  | .aenc => atkStepsLeft v s
  | .arec => atkStepsLeft v s
  | .idle => 0
  | .check => 0

theorem stepsLeft_checkLoads (i : Instr) (v : Variant) (s : State) :
    microSteps v i = stepsLeft i v (checkLoads v s) + 1 := by
  have hi : stepsLeft i v (checkLoads v s) = v.rc - 0 + (microSteps v i - (1 + v.rc)) := rfl
  have hge : 1 + v.rc ≤ microSteps v i := by cases i <;> simp only [microSteps] <;> omega
  omega

theorem atkStepsLeft_startTrialAt {v : Variant} {j : Nat} (hj : j < v.ntrials) (s : State) :
    atkStepsLeft v (startTrialAt v j s) = (v.ntrials - j) * (v.rc + 1) := by
  obtain ⟨m, hm⟩ : ∃ m, v.ntrials = j + 1 + m := Nat.exists_eq_add_of_le hj
  have hleft : atkStepsLeft v (startTrialAt v j s) =
      v.rc - 0 + 1 + (v.ntrials - ((BitVec.ofNat 5 j).toNat + 1)) * (v.rc + 1) := rfl
  rw [hleft, toNat_trialIndex v hj, show v.ntrials - j = m + 1 by omega, show v.ntrials - (j + 1) = m by omega, Nat.succ_mul]
  omega

/-- What is left after the dispatch is the count of the command's own phases. -/
theorem stepsLeft_dispatchOf (i : Instr) (v : Variant) (s : State) :
    stepsLeft i v (dispatchOf i v s) = microSteps v i - (1 + v.rc) := by
  have hrc := rc_ge v
  cases i with
  | kexp => exact (Nat.sub_self (1 + v.rc)).symm
  | enc bs ks =>
    have hleft : stepsLeft (.enc bs ks) v (dispatchEnc v s) = v.rc - 0 := rfl
    simp only [dispatchOf, hleft, microSteps]
    omega
  | dec bs ks =>
    have hleft : stepsLeft (.dec bs ks) v (dispatchDec v s) = (BitVec.ofNat 6 (v.rc - 1)).toNat + 1 := rfl
    simp only [dispatchOf, hleft, toNat_roundIndex v (show v.rc - 1 < v.rc by omega), microSteps]
    omega
  | atk bs ks =>
    have htrials : 0 < v.ntrials := by cases v <;> decide
    have hleft := atkStepsLeft_startTrialAt htrials (s.withKeyBitMap { acc := 0#32, accv := 0#32 })
    simp only [microSteps, Nat.add_sub_cancel_left]
    exact hleft

/-- Every micro-step takes one off, and after the last none is left. -/
theorem Transition.stepsLeft_eq {i : Instr} {v : Variant} {s t : State} (h : Transition i v s t) (hc : CountersInRange v s) :
    stepsLeft i v s = stepsLeft i v t + 1 := by
  cases h with
  | ksRound hp _ hmore =>
    simp only [stepsLeft, hp, withI_phase, withI_i, toNat_roundIndex v hmore,
      show (ksRoundWrites v s).phase = .ks from hp]
    omega
  | ksLast hp _ hlast =>
    have hi := (countersInRange_ks hp).1 hc
    rw [stepsLeft_dispatchOf]
    simp only [stepsLeft, hp]
    omega
  | encRound hp _ hmore =>
    simp only [stepsLeft, hp, withI_phase, withHalves_phase, withI_i, toNat_roundIndex v hmore]
    omega
  | encLast hp _ hlast =>
    have hi := (countersInRange_enc hp).1 hc
    simp only [stepsLeft, hp, finishBlock, finish_phase]
    omega
  | decRound hp _ hmore =>
    have hi := (countersInRange_dec hp).1 hc
    simp only [stepsLeft, hp, withI_phase, withHalves_phase, withI_i, toNat_roundIndex v (show s.i.toNat - 1 < v.rc by omega)]
    omega
  | decLast hp _ hlast =>
    simp only [stepsLeft, hp, finishBlock, finish_phase]
    omega
  | aencRound hp _ hmore =>
    simp only [stepsLeft, atkStepsLeft, hp, withI_phase, withHalves_phase, withI_i, withI_j, withHalves_j,
      toNat_roundIndex v hmore]
    omega
  | aencLast hp _ hlast =>
    have hi := ((countersInRange_aenc hp).1 hc).1
    simp only [stepsLeft, atkStepsLeft, hp, enterArec, withHalves_j]
    omega
  | arecNext hp _ hmore =>
    simp only [stepsLeft, hp, startTrialAt_phase, atkStepsLeft_startTrialAt hmore]
    simp only [atkStepsLeft, hp]
    omega
  | arecLast hp _ hlast =>
    have hj := (countersInRange_arec hp).1 hc
    simp only [stepsLeft, atkStepsLeft, hp, finishSession, finish_phase, show v.ntrials - (s.j.toNat + 1) = 0 by omega,
      Nat.zero_mul]

/-! ### From CHECK to the end -/

/-- The command `i`, issued in the state `s₀`, is under way in `s` and has changed nothing that it may not. -/
structure InProgress (i : Instr) (v : Variant) (s₀ s : State) : Prop extends UnderWay i v s₀ s where
  host : s.host = s₀.host
  dout : s.dout = s₀.dout
  rkout : s.rkout = s₀.rkout
  above : ∀ k, v.rc ≤ k → s.rkAt k = s₀.rkAt k

/-- The command `i`, issued in the state `s₀`, has ended without error in `t`. -/
structure Completed (i : Instr) (v : Variant) (s₀ t : State) : Prop where
  operands : SameOperands s₀ t
  status : t.status = Status.ended 0#4
  phase : t.phase = .idle
  stored : ∀ k, k < v.rc → t.rkAt k = keySchedule v s₀.key k
  above : ∀ k, v.rc ≤ k → t.rkAt k = s₀.rkAt k
  results : ResultsOf v s₀ t i

theorem checkLoads_inProgress (i : Instr) (v : Variant) (s : State) : InProgress i v s (checkLoads v s) where
  same := ⟨rfl, rfl, rfl, rfl, rfl⟩
  phase := by cases i <;> rfl
  counters := checkLoads_counters v s
  course := checkLoads_onCourse v s
  host := rfl
  dout := rfl
  rkout := rfl
  above := fun _ _ => rfl

/-- The results depend on the operands and the earlier results alone. -/
theorem ResultsOf.congr {v : Variant} {s₀ s t : State} {i : Instr} (hkey : s.key = s₀.key) (hdin : s.din = s₀.din)
    (hgct : s.gct = s₀.gct) (hdout : s.dout = s₀.dout) (hrkout : s.rkout = s₀.rkout) (h : ResultsOf v s t i) :
    ResultsOf v s₀ t i := by
  cases i <;> simpa only [ResultsOf, hkey, hdin, hgct, hdout, hrkout] using h

/-- The entries from `rc` up are out of reach of the KS micro-steps. -/
theorem Transition.rkAt_above {i : Instr} {v : Variant} {s t : State} (h : Transition i v s t) (hc : CountersInRange v s)
    {k : Nat} (hk : v.rc ≤ k) : t.rkAt k = s.rkAt k := by
  rcases h.rk_eq with ⟨hp, -⟩ | ⟨-, hrk⟩
  · have hi := (countersInRange_ks hp).1 hc
    exact h.rkAt_of_ne (by omega)
  · exact rkAt_eq_of_rk_eq hrk k

/-- Every micro-step of a command in progress: it goes on, or it is complete. -/
theorem InProgress.transition {i : Instr} {v : Variant} {s₀ s t : State} (h : InProgress i v s₀ s) (htr : Transition i v s t) :
    (t.phase ≠ .idle ∧ InProgress i v s₀ t) ∨ Completed i v s₀ t := by
  obtain ⟨⟨hsame, hpass, hc, hcourse⟩, hhost, hdout, hrkout, habove⟩ := h
  obtain ⟨hcmd', hkey', hdin', hgct', hhost'⟩ := htr.sameOperands
  have habove' : ∀ k, v.rc ≤ k → t.rkAt k = s₀.rkAt k := fun k hk => (htr.rkAt_above hc hk).trans (habove k hk)
  rcases htr.results with ⟨hphase, hstatus', hdout', hrkout'⟩ | ⟨hphase, hstatus'⟩
  · obtain ⟨hpass', hc'⟩ := (htr.control hpass hc).resolve_left hphase
    exact .inl ⟨hphase, ⟨⟨hcmd'.trans hsame.cmd, hstatus'.trans hsame.status, hkey'.trans hsame.key, hdin'.trans hsame.din,
      hgct'.trans hsame.gct⟩, hpass', hc', htr.onCourse hc hcourse⟩, hhost'.trans hhost, hdout'.trans hdout,
      hrkout'.trans hrkout, habove'⟩
  · obtain ⟨hstored, hresults⟩ := htr.results_of_last hpass hc hcourse hphase
    refine .inr ⟨⟨hcmd'.trans hsame.cmd, hkey'.trans hsame.key, hdin'.trans hsame.din, hgct'.trans hsame.gct,
      hhost'.trans hhost⟩, hstatus', hphase, fun k hk => ?_, habove',
      hresults.congr hsame.key hsame.din hsame.gct hdout hrkout⟩
    rw [hstored k hk, hkey', hsame.key]

/-- The next micro-step of a command in progress. -/
theorem InProgress.exists_next {i : Instr} {v : Variant} {s₀ s : State} (hv : lookupVariant i.bs i.ks = some v)
    (h : InProgress i v s₀ s) : ∃ t, exec i s = .next t ∧ stepsLeft i v s = stepsLeft i v t + 1 ∧
      (InProgress i v s₀ t ∨ (Completed i v s₀ t ∧ stepsLeft i v t = 0)) := by
  obtain ⟨hidle, hcheck⟩ := phase_ne_of_passesThrough h.phase
  obtain ⟨t, htr⟩ := exists_transition i hidle hcheck h.counters
  refine ⟨t, exec_of_transition hv htr, htr.stepsLeft_eq h.counters, ?_⟩
  rcases h.transition htr with ⟨-, hnext⟩ | hend
  · exact .inl hnext
  · exact .inr ⟨hend, by simp only [stepsLeft, hend.phase]⟩

theorem execSteps_of_next {i : Instr} {n : Nat} {s t : State} (h : exec i s = .next t) :
    execSteps i (n + 1) s = execSteps i n t := by
  simp [execSteps, h]

/-- R223: a command in progress is not idle for the micro-steps it has left, and then it is complete. -/
theorem InProgress.execSteps {i : Instr} {v : Variant} {s₀ : State} (hv : lookupVariant i.bs i.ks = some v) :
    ∀ {n : Nat} {s : State}, InProgress i v s₀ s → stepsLeft i v s = n →
      (∀ m, m < n → ∃ t, execSteps i m s = .next t ∧ t.phase ≠ .idle ∧ t.status = s₀.status) ∧
      ∃ t, execSteps i n s = .next t ∧ Completed i v s₀ t := by
  intro n
  induction n with
  | zero =>
    intro s h hn
    obtain ⟨t, -, hleft, -⟩ := h.exists_next hv
    omega
  | succ n ih =>
    intro s h hn
    have hnow : s.phase ≠ .idle ∧ s.status = s₀.status := ⟨(phase_ne_of_passesThrough h.phase).1, h.same.status⟩
    obtain ⟨t, hexec, hleft, hnext | ⟨hend, hzero⟩⟩ := h.exists_next hv
    · obtain ⟨hbusy, hdone⟩ := ih hnext (by omega)
      rw [execSteps_of_next hexec]
      refine ⟨fun m hm => ?_, hdone⟩
      cases m with
      | zero => exact ⟨s, rfl, hnow⟩
      | succ m => exact execSteps_of_next hexec ▸ hbusy m (by omega)
    · obtain rfl : n = 0 := by omega
      refine ⟨fun m hm => ?_, t, execSteps_of_next hexec, hend⟩
      obtain rfl : m = 0 := by omega
      exact ⟨s, rfl, hnow⟩

/-- A command in progress reaches its end when the engine runs alone for at least the micro-steps it has left. -/
theorem InProgress.runUntilIdle {i : Instr} {v : Variant} {s₀ : State} (hv : lookupVariant i.bs i.ks = some v)
    (hd : decode s₀.cmd = some i) (hb : s₀.status.busy = true) :
    ∀ {n : Nat} {s : State}, InProgress i v s₀ s → stepsLeft i v s ≤ n →
      ∃ t, runUntilIdle n s = .next t ∧ Completed i v s₀ t := by
  intro n
  induction n with
  | zero =>
    intro s h hn
    obtain ⟨t, -, hleft, -⟩ := h.exists_next hv
    omega
  | succ n ih =>
    intro s h hn
    have hbusy : s.status.busy = true := by rw [h.same.status, hb]
    have hdecode : decode s.cmd = some i := by rw [h.same.cmd, hd]
    obtain ⟨t, hexec, hleft, hnext⟩ := h.exists_next hv
    rw [runUntilIdle_busy n hbusy ((engineTurn_command hbusy hdecode).trans hexec)]
    rcases hnext with hnext | ⟨hend, -⟩
    · exact ih hnext (by omega)
    · exact ⟨t, runUntilIdle_idle n (by rw [hend.status]; rfl), hend⟩

/-! ### Whole commands (R147, R162, R163, R193) -/

theorem microSteps_le (v : Variant) (i : Instr) : microSteps v i ≤ Config.maxMicroSteps := by
  cases i <;> cases v <;> simp [microSteps, Config.maxMicroSteps]

/-- R225, with no error: a command whose checks pass completes. -/
theorem runCommand_completes {i : Instr} {v : Variant} {s : State} (hv : lookupVariant i.bs i.ks = some v)
    (hfit : operandsFit i v s = true) :
    ∃ t, runCommand (encode i) s = .next t ∧ Completed i v (issue (encode i) s) t := by
  have hway := checkLoads_inProgress i v (issue (encode i) s)
  have hleft : stepsLeft i v (checkLoads v (issue (encode i) s)) ≤ 1034 := by
    have hcount := stepsLeft_checkLoads i v (issue (encode i) s)
    have hmax : microSteps v i ≤ 1035 := microSteps_le v i
    omega
  rw [runCommand_checked hv hfit]
  exact InProgress.runUntilIdle (s₀ := issue (encode i) s) hv (decode_encode i) rfl hway hleft

/-- Settles O50: the end of `runCommand_completes` for `KEXP`. -/
theorem kexpExpandsTheKey : Obligations.KexpExpandsTheKey := by
  intro bs ks v s _ hv hkey
  obtain ⟨t, hrun, ⟨hcmd, hkey', hdin', hgct', hhost⟩, hstatus, hphase, hstored, habove, hdout, hrkout⟩ :=
    runCommand_completes (i := .kexp bs ks) hv ((operandsFit_iff _ v s).2 ⟨hkey, by simp [Instr.op], by simp [Instr.op]⟩)
  exact ⟨t, hrun, hcmd, hstatus, hphase, hstored, habove, hdout, hrkout, hkey', hdin', hgct', hhost⟩

/-- Settles O51: the end of `runCommand_completes` for `ENC`; the block fits by `encrypt_lt`. -/
theorem encEncryptsTheBlock : Obligations.EncEncryptsTheBlock := by
  intro bs ks v s _ hv hkey hdin
  obtain ⟨t, hrun, ⟨hcmd, hkey', hdin', hgct', hhost⟩, hstatus, hphase, hstored, habove, hdout, hrkout⟩ :=
    runCommand_completes (i := .enc bs ks) hv ((operandsFit_iff _ v s).2 ⟨hkey, fun _ => hdin, by simp [Instr.op]⟩)
  have hlt : t.dout.toNat < 2 ^ v.bs := hdout ▸ encrypt_lt (keySchedule_fits v s.key) hdin
  exact ⟨t, hrun, hcmd, hstatus, hphase, hstored, habove, hdout, hlt, hrkout, hkey', hdin', hgct', hhost⟩

/-- Settles O52: the end of `runCommand_completes` for `DEC`; the block fits by `decrypt_lt`. -/
theorem decDecryptsTheBlock : Obligations.DecDecryptsTheBlock := by
  intro bs ks v s _ hv hkey hdin
  obtain ⟨t, hrun, ⟨hcmd, hkey', hdin', hgct', hhost⟩, hstatus, hphase, hstored, habove, hdout, hrkout⟩ :=
    runCommand_completes (i := .dec bs ks) hv ((operandsFit_iff _ v s).2 ⟨hkey, fun _ => hdin, by simp [Instr.op]⟩)
  have hlt : t.dout.toNat < 2 ^ v.bs := hdout ▸ decrypt_lt (keySchedule_fits v s.key) hdin
  exact ⟨t, hrun, hcmd, hstatus, hphase, hstored, habove, hdout, hlt, hrkout, hkey', hdin', hgct', hhost⟩

/-- Settles O53: the end of `runCommand_completes` for `ATK`; the word fits by `acc_sessionMap_fits`. -/
theorem atkRunsTheSession : Obligations.AtkRunsTheSession := by
  intro bs ks v s _ hv hkey hdin hgct
  obtain ⟨t, hrun, ⟨hcmd, hkey', hdin', hgct', hhost⟩, hstatus, hphase, hstored, habove, hdout, hrkout⟩ :=
    runCommand_completes (i := .atk bs ks) hv ((operandsFit_iff _ v s).2 ⟨hkey, fun _ => hdin, fun _ => hgct⟩)
  have hlt : t.rkout.toNat < 2 ^ v.ws := hrkout ▸ acc_sessionMap_fits v (keySchedule v s.key) s.din s.gct le_rfl
  exact ⟨t, hrun, hcmd, hstatus, hphase, hstored, habove, hrkout, hlt, hdout, hkey', hdin', hgct', hhost⟩

/-! ### Failing commands (R253 to R256) and every command -/

/-- A first micro-step that ends the command is the whole command. -/
theorem runCommand_of_finish {w : Word} {s : State} {e : BitVec 4} (h : engineTurn (issue w s) = .next (finish e (issue w s))) :
    runCommand w s = .next (finish e (issue w s)) := by
  have hrun := runUntilIdle_busy 1034 (s := issue w s) rfl h
  exact hrun.trans (runUntilIdle_idle 1034 rfl)

theorem runCommand_illegal {w : Word} (hd : decode w = none) (s : State) :
    runCommand w s = .next (finish 3#4 (issue w s)) :=
  runCommand_of_finish (engineTurn_illegal (s := issue w s) rfl rfl hd)

theorem exec_check_unsupported {i : Instr} {s : State} (hp : s.phase = .check) (hv : lookupVariant i.bs i.ks = none) :
    exec i s = .next (finish 2#4 s) := by
  rw [exec_check i s hp, checkStep_unsupported _ hv]

theorem exec_check_misfit {i : Instr} {v : Variant} {s : State} (hp : s.phase = .check)
    (hv : lookupVariant i.bs i.ks = some v) (hfit : operandsFit i v s = false) : exec i s = .next (finish 1#4 s) := by
  simp [exec_check i s hp, checkStep_supported _ hv, hfit]

theorem runCommand_unsupported {w : Word} {i : Instr} (hd : decode w = some i) (hv : lookupVariant i.bs i.ks = none)
    (s : State) : runCommand w s = .next (finish 2#4 (issue w s)) :=
  runCommand_of_finish ((engineTurn_issue hd s).trans (exec_check_unsupported rfl hv))

theorem runCommand_misfit {w : Word} {i : Instr} {v : Variant} {s : State} (hd : decode w = some i)
    (hv : lookupVariant i.bs i.ks = some v) (hfit : operandsFit i v s = false) :
    runCommand w s = .next (finish 1#4 (issue w s)) := by
  have hfit' : operandsFit i v (issue w s) = false := (operandsFit_congr i v (s := s) (t := issue w s) rfl rfl rfl).trans hfit
  exact runCommand_of_finish ((engineTurn_issue hd s).trans (exec_check_misfit rfl hv hfit'))

/-- An engine that was idle is left as it was but for `CMD` and `STATUS`. -/
theorem finish_issue_of_idle {s : State} (hp : s.phase = .idle) (e : BitVec 4) (w : Word) :
    finish e (issue w s) = { s with cmd := w, status := Status.ended e } := by
  rw [finish, issue, ← hp]

/-- Settles O54: the three ways to fail, each in one micro-step. -/
theorem failedCommandChangesOnlyCmdAndStatus : Obligations.FailedCommandChangesOnlyCmdAndStatus := by
  intro w s _ hp
  refine ⟨fun hd => ?_, fun i hd => ⟨fun hv => ?_, fun v hv hfit => ?_⟩⟩
  · rw [runCommand_illegal hd, finish_issue_of_idle hp]
    rfl
  · rw [runCommand_unsupported hd hv, finish_issue_of_idle hp]
    rfl
  · rw [runCommand_misfit hd hv hfit, finish_issue_of_idle hp]
    rfl

/-- Settles O55: the counts by `InProgress.execSteps` from the loads of CHECK on, the failures by one micro-step. -/
theorem microStepCounts : Obligations.MicroStepCounts := by
  refine ⟨fun i v s hp hv hfit => ?_, fun i s hp hfail => ?_, fun s hb hp hd => ?_, fun bs ks => ?_⟩
  · have hexec := exec_check_loads hp hv hfit
    obtain ⟨hbusy, t, hrun, hend⟩ := (checkLoads_inProgress i v s).execSteps hv rfl
    rw [stepsLeft_checkLoads i v s]
    refine ⟨fun m hm => ?_, t, (execSteps_of_next hexec).trans hrun, hend.phase, hend.status⟩
    cases m with
    | zero => exact ⟨s, rfl, by simp [hp], rfl⟩
    | succ m => exact execSteps_of_next hexec ▸ hbusy m (by omega)
  · rcases hfail with hv | ⟨v, hv, hfit⟩
    · exact ⟨_, execSteps_of_next (exec_check_unsupported hp hv), rfl, rfl, by simp [Status.ended]⟩
    · exact ⟨_, execSteps_of_next (exec_check_misfit hp hv hfit), rfl, rfl, by simp [Status.ended]⟩
  · exact ⟨_, engineTurn_illegal hb hp hd, rfl, rfl, by simp [Status.ended]⟩
  · exact ⟨rfl, rfl, rfl, rfl, rfl, rfl, rfl, rfl, rfl, rfl, rfl, rfl⟩

/-- Settles O56: a word spells no command, or a command that fails a check, or one that completes. -/
theorem everyCommandEnds : Obligations.EveryCommandEnds := by
  intro w s _
  cases hd : decode w with
  | none => exact ⟨_, runCommand_illegal hd s, rfl, rfl, rfl, rfl⟩
  | some i =>
    cases hv : lookupVariant i.bs i.ks with
    | none => exact ⟨_, runCommand_unsupported hd hv s, rfl, rfl, rfl, rfl⟩
    | some v =>
      cases hfit : operandsFit i v s with
      | false => exact ⟨_, runCommand_misfit hd hv hfit, rfl, rfl, rfl, rfl⟩
      | true =>
        obtain rfl := eq_encode_of_decode hd
        obtain ⟨t, hrun, hend⟩ := runCommand_completes hv hfit
        exact ⟨t, hrun, by simp [hend.status, Status.ended], by simp [hend.status, Status.ended], hend.phase, hend.operands.cmd⟩

end Sys2Proof.Machine
end

section
/-! PROOFS. The machine's own runs (20_memory.md R71; 45_command_sequencer.md R210, R225): without host turns they are the big
step, and host turns between the micro-steps change nothing of the engine. -/

namespace Sys2Proof.Machine

/-! ### The engine's turn and the host agent -/

theorem engineTurn_host {s t : State} (h : engineTurn s = .next t) : t.host = s.host := by
  rcases engineTurn_next h with ⟨-, rfl⟩ | ⟨-, i, -, hexec⟩ | ⟨-, -, -, rfl⟩
  · rfl
  · exact (exec_sameOperands hexec).host
  · rfl

/-- The engine's turn is the same beside any other host agent. -/
theorem engineTurn_withHost {s t : State} (h : engineTurn s = .next t) (a : HostAgent) :
    engineTurn { s with host := a } = .next { t with host := a } := by
  rcases engineTurn_next h with ⟨hb, rfl⟩ | ⟨hb, i, hd, hexec⟩ | ⟨hb, hd, hp, rfl⟩
  · exact engineTurn_idle (s := { t with host := a }) hb
  · exact (engineTurn_command (s := { s with host := a }) hb hd).trans (exec_withHost hexec a)
  · exact engineTurn_illegal (s := { s with host := a }) hb hp hd

/-- While the engine stays busy its turns leave `STATUS` alone (R285). -/
theorem engineTurn_status_of_busy {s t : State} (h : engineTurn s = .next t) (hb : t.status.busy = true) :
    t.status = s.status := by
  rcases engineTurn_next h with ⟨-, rfl⟩ | ⟨-, i, -, hexec⟩ | ⟨-, -, -, rfl⟩
  · rfl
  · obtain ⟨hgoing, hended, -⟩ := resultsChangeOnlyAtCommandEnd i s t hexec
    have hphase : t.phase ≠ .idle := fun hidle => by simp [(hended hidle).1] at hb
    exact (hgoing hphase).1
  · exact nomatch hb

/-! ### The big step (R225) -/

theorem runUntilIdle_fault (n : Nat) {s : State} {e : Fault} (hb : s.status.busy = true) (he : engineTurn s = .fault e) :
    runUntilIdle (n + 1) s = .fault e := by
  simp [runUntilIdle, hb, he]

theorem runUntilIdle_refused (n : Nat) {s : State} {e : Refusal} (hb : s.status.busy = true) (he : engineTurn s = .refused e) :
    runUntilIdle (n + 1) s = .refused e := by
  simp [runUntilIdle, hb, he]

/-- Without host turns every step is the engine's, and once the engine is idle its turns change nothing. -/
theorem core_run_eq_runUntilIdle (n : Nat) {s : State} (hq : s.host.script = []) :
    Sys2Proof.core.run n s = runUntilIdle n s := by
  induction n generalizing s with
  | zero => rfl
  | succ n ih =>
    have hstep := step_of_nil hq
    cases hb : s.status.busy with
    | false =>
      rw [core_run_of_next (hstep.trans (engineTurn_idle hb)), ih hq, runUntilIdle_idle _ hb, runUntilIdle_idle _ hb]
    | true =>
      cases he : engineTurn s with
      | next t =>
        rw [core_run_of_next (hstep.trans he), runUntilIdle_busy n hb he]
        exact ih (engineTurn_host he ▸ hq)
      | fault e => exact (core_run_of_fault (hstep.trans he)).trans (runUntilIdle_fault n hb he).symm
      | refused e => exact (core_run_of_refused (hstep.trans he)).trans (runUntilIdle_refused n hb he).symm

/-- Settles O57. -/
theorem runCommandIsTheMachinesOwnRun : Obligations.RunCommandIsTheMachinesOwnRun :=
  fun w s hq => core_run_eq_runUntilIdle Config.maxMicroSteps (s := issue w s) hq

/-! ### Interleaving (R71, R210) -/

/-- The host does not reset the engine, and it reads mapped numbers only. -/
def HarmlessScript (q : List HostTurn) : Prop :=
  ∀ x ∈ q, x ≠ .reset ∧ ∀ k, x = .read k → (Reg.ofNumber k).isSome = true

/-- The engine's turns among the first `m` turns of `q`, for every `m < n`, leave it busy. -/
def BusyThroughout (n : Nat) (q : List HostTurn) (s : State) : Prop :=
  ∀ m, m < n → ∃ x, engineTurns (engineTurnsAmong m q) s = .next x ∧ x.status.busy = true

theorem BusyThroughout.busy {n : Nat} {q : List HostTurn} {s : State} (h : BusyThroughout (n + 1) q s) :
    s.status.busy = true := by
  obtain ⟨x, hx, hb⟩ := h 0 (Nat.succ_pos n)
  rw [engineTurnsAmong_zero, engineTurns_zero] at hx
  cases hx
  exact hb

/-- The statement of R71 (c) for `n` turns, the engine's state and the host agent named apart. -/
def Interleaves (n : Nat) : Prop :=
  ∀ (s u : State) (a : HostAgent), (0 < n → s.status.done = false) → HarmlessScript a.script → BusyThroughout n a.script s →
    engineTurns (engineTurnsAmong n a.script) s = .next u →
    ∃ t, Sys2Proof.core.run n { s with host := a } = .next t ∧ SameEngine t u

section
variable {n : Nat} (ih : Interleaves n) {s u : State} {a a' : HostAgent} (hharmless : HarmlessScript a'.script)
  (hbusy : BusyThroughout (n + 1) a.script s) (hrun : engineTurns (engineTurnsAmong (n + 1) a.script) s = .next u)
include ih hharmless hbusy hrun

/-- A host turn that leaves the engine alone is none of the engine's. -/
theorem interleaves_host (hdone : s.status.done = false) (hstep : step { s with host := a } = .next { s with host := a' })
    (hcount : ∀ m, engineTurnsAmong (m + 1) a.script = engineTurnsAmong m a'.script) :
    ∃ t, Sys2Proof.core.run (n + 1) { s with host := a } = .next t ∧ SameEngine t u := by
  rw [core_run_of_next hstep]
  exact ih s u a' (fun _ => hdone) hharmless (fun m hm => hcount m ▸ hbusy (m + 1) (by omega)) (hcount n ▸ hrun)

/-- A turn on which the engine moves is one of the engine's. -/
theorem interleaves_engine (hdone : s.status.done = false)
    (hstep : ∀ t, engineTurn s = .next t → step { s with host := a } = .next { t with host := a' })
    (hcount : ∀ m, engineTurnsAmong (m + 1) a.script = engineTurnsAmong m a'.script + 1) :
    ∃ t, Sys2Proof.core.run (n + 1) { s with host := a } = .next t ∧ SameEngine t u := by
  obtain ⟨t, he, hrest⟩ := engineTurns_next (hcount n ▸ hrun)
  have hbusy' : BusyThroughout n a'.script t := fun m hm => by
    rw [← engineTurns_of_next he, ← hcount]
    exact hbusy (m + 1) (by omega)
  rw [core_run_of_next (hstep t he)]
  refine ih t u a' (fun hn => ?_) hharmless hbusy' hrest
  obtain ⟨m, rfl⟩ := Nat.exists_eq_succ_of_ne_zero hn.ne'
  rw [engineTurn_status_of_busy he hbusy'.busy, hdone]

end

/-- Turn by turn: a `WAIT` and an empty script leave the engine the turn and stay, an engine turn is taken off, reads and busy
writes are the host's alone. -/
theorem interleaves (n : Nat) : Interleaves n := by
  induction n with
  | zero =>
    intro s u a _ _ _ hrun
    rw [engineTurnsAmong_zero, engineTurns_zero] at hrun
    cases hrun
    exact ⟨_, rfl, rfl⟩
  | succ n ih =>
    intro s u a hdone hharmless hbusy hrun
    have hd := hdone (Nat.succ_pos n)
    have hb := hbusy.busy
    obtain ⟨script, seen⟩ := a
    cases script with
    | nil =>
      exact interleaves_engine ih hharmless hbusy hrun hd
        (fun t he => (step_of_nil rfl).trans (engineTurn_withHost he _)) fun m => by simp
    | cons turn rest =>
      have hrest : HarmlessScript rest := fun x hx => hharmless x (List.mem_cons_of_mem _ hx)
      cases turn with
      | engine =>
        exact interleaves_engine (a' := ⟨rest, seen⟩) ih hrest hbusy hrun hd
          (fun t he => (step_of_engine rfl).trans (engineTurn_withHost he _)) fun m => rfl
      | wait =>
        have hstep : step { s with host := ⟨.wait :: rest, seen⟩ } = engineTurn { s with host := ⟨.wait :: rest, seen⟩ } :=
          step_of_wait_polling rfl hd
        exact interleaves_engine ih hharmless hbusy hrun hd (fun t he => hstep.trans (engineTurn_withHost he _)) fun m => by simp
      | read k =>
        obtain ⟨g, hg⟩ := Option.isSome_iff_exists.1 ((hharmless _ (List.mem_cons_self ..)).2 k rfl)
        obtain rfl := (ofNumber_eq_some_iff k g).1 hg
        exact interleaves_host (a' := ⟨rest, _⟩) ih hrest hbusy hrun hd (step_of_read_number g rfl) fun m => rfl
      | write k x =>
        exact interleaves_host (a' := ⟨rest, seen⟩) ih hrest hbusy hrun hd
          ((step_of_write rfl).trans (hostWrite_busy k x hb)) fun m => rfl
      | reset => exact absurd rfl (hharmless _ (List.mem_cons_self ..)).1

/-- Settles O58. -/
theorem interleavingDoesNotMatter : Obligations.InterleavingDoesNotMatter :=
  fun s u n hdone hharmless hbusy hrun => interleaves n s u s.host (fun _ => hdone) hharmless hbusy hrun

end Sys2Proof.Machine
end

section
/-! PROOFS. The failing CHECK, the KS micro-steps with their dispatches and the AENC micro-step as exact next states
(45_command_sequencer.md R216, R217, R220; 60_exceptions.md R252, R253). -/

namespace Sys2Proof.Machine

/-! ### CHECK -/

/-- Settles O32. -/
theorem checkRaisesUnsupportedParameters : Obligations.CheckRaisesUnsupportedParameters := by
  intro i s hp hwf
  exact exec_check_unsupported hp (by simpa [Instr.wellFormed] using hwf)

/-- Settles O33: an operand out of range is a failing `operandsFit`. -/
theorem checkRaisesInvalidArgument : Obligations.CheckRaisesInvalidArgument := by
  intro i v s hp hv hout
  have hfit : ¬ operandsFit i v s = true := by
    rw [operandsFit_iff]
    rintro ⟨hkey, hdin, hgct⟩
    rcases hout with hk | ⟨hop, hd⟩ | ⟨hop, hg⟩
    · exact absurd hkey (by omega)
    · exact absurd (hdin hop) (by omega)
    · exact absurd (hgct hop) (by omega)
  exact exec_check_misfit hp hv (Bool.eq_false_iff.2 hfit)

/-! ### The key schedule -/

/-- Settles O35. -/
theorem keyScheduleMicroStep : Obligations.KeyScheduleMicroStep := by
  intro i v s hp hv hmore
  have hdepth := rc_le v
  exact exec_of_transition hv (.ksRound hp (by omega) hmore)

/-- The last KS micro-step of each command is its dispatch. -/
theorem exec_ksLast {i : Instr} {v : Variant} {s : State} (hp : s.phase = .ks) (hv : lookupVariant i.bs i.ks = some v)
    (hlast : s.i.toNat + 1 = v.rc) : exec i s = .next (dispatchOf i v (ksRoundWrites v s)) := by
  have hdepth := rc_le v
  exact exec_of_transition hv (.ksLast hp (by omega) (by omega))

/-- Settles O36. -/
theorem kexpCompletes : Obligations.KexpCompletes :=
  fun bs ks _ _ hp hv hlast => exec_ksLast (i := .kexp bs ks) hp hv hlast

theorem dispatchEnc_eq (v : Variant) (s : State) :
    dispatchEnc v s = { s with l := upperHalf v s.din, r := lowerHalf v s.din, i := 0#6, phase := .enc } := rfl

theorem dispatchDec_eq (v : Variant) (s : State) : dispatchDec v s =
    { s with l := upperHalf v s.din, r := lowerHalf v s.din, i := BitVec.ofNat 6 (v.rc - 1), phase := .dec } := rfl

theorem dispatchAtk_eq_flat (v : Variant) (s : State) : dispatchAtk v s =
    { s with
      l := upperHalf v s.din, r := lowerHalf v s.din, i := 0#6, phase := .aenc, j := 0#5, acc := 0#32, accv := 0#32 } := rfl

/-- Settles O37. -/
theorem scheduleEndsInTheCommandsPhase : Obligations.ScheduleEndsInTheCommandsPhase := by
  intro bs ks v s hp hv hlast s'
  refine ⟨?_, ?_, ?_⟩
  · rw [exec_ksLast (i := .enc bs ks) hp hv hlast, dispatchOf, dispatchEnc_eq]
    rfl
  · rw [exec_ksLast (i := .dec bs ks) hp hv hlast, dispatchOf, dispatchDec_eq]
    rfl
  · rw [exec_ksLast (i := .atk bs ks) hp hv hlast, dispatchOf, dispatchAtk_eq_flat]
    rfl

/-! ### The faulted encryption -/

/-- R182, R183: the hook flips one bit of the left half, in the fault round alone. -/
theorem faultHook_eq (v : Variant) (n j : Nat) (h : Halves) : faultHook v n j h =
    { left := if n = v.rc - 2 then h.left ^^^ BitVec.twoPow 32 j else h.left, right := h.right } := by
  rw [faultHook, Variant.faultRound]
  split_ifs <;> rfl

/-- Settles O40: the two branches of the AENC micro-step, the hook spelled out by `faultHook_eq`. -/
theorem faultedRoundOfATrial : Obligations.FaultedRoundOfATrial := by
  intro bs ks v s hp hv lf newL
  have hdepth := rc_le v
  have hhalves : aencHalves v s = { left := newL, right := lf } := by
    rw [aencHalves, faultHook_eq]
    rfl
  refine ⟨fun hmore => ?_, fun hlast => ?_⟩
  · have hexec := exec_of_transition (i := .atk bs ks) hv (.aencRound hp (by omega) hmore)
    rw [hhalves] at hexec
    exact hexec
  · have hexec := exec_of_transition (i := .atk bs ks) hv (.aencLast hp (by omega) (by omega))
    rw [hhalves] at hexec
    exact hexec

end Sys2Proof.Machine
end

section
/-! PROOFS. The parameter table and the round-constant sequence (40_parameters_and_sequence.md R100 to R107): the list that the
source grows satisfies its recurrence, and the window register runs through it. -/

namespace Sys2Proof.Machine

/-! ### The parameter table (R100, R102) -/

theorem lookup_eq (bs ks : BitVec 8) : lookup bs ks =
    if bs = 32#8 ∧ ks = 64#8 then some 32 else if bs = 48#8 ∧ ks = 96#8 then some 36
    else if bs = 64#8 ∧ ks = 128#8 then some 44 else none := by
  unfold lookup lookupVariant
  split_ifs <;> rfl

/-- Settles O5: the table is evaluated. -/
theorem parameterTable : Obligations.ParameterTable := ⟨lookup_eq, by decide, by decide, by decide⟩

/-! ### The list that the source grows (R103, R105) -/

@[simp] theorem length_seqGrow (tap n i : Nat) (st : List Bool) : (seqGrow tap n i st).length = st.length + n := by
  induction n generalizing i st with
  | zero => rfl
  | succ n ih => rw [seqGrow, ih, List.length_append, List.length_singleton]; omega

/-- Growing leaves the entries there are. -/
theorem getD_seqGrow_of_lt (tap n i : Nat) {st : List Bool} {k : Nat} (hk : k < st.length) :
    (seqGrow tap n i st).getD k false = st.getD k false := by
  induction n generalizing i st with
  | zero => rfl
  | succ n ih => rw [seqGrow, ih (i + 1) (by simp; omega), List.getD_append _ _ _ _ hk]

/-- Each entry that is added is the feedback of two before it. -/
theorem getD_seqGrow_add {tap w : Nat} (htap : tap < w) {n i m : Nat} {st : List Bool} (hst : st.length = i + w) (hm : m < n) :
    (seqGrow tap n i st).getD (i + m + w) false =
      ((seqGrow tap n i st).getD (i + m + tap) false ^^ (seqGrow tap n i st).getD (i + m) false) := by
  induction n generalizing i m st with
  | zero => omega
  | succ n ih =>
    have hlen : (st ++ [st.getD (i + tap) false ^^ st.getD i false]).length = i + 1 + w := by simp; omega
    rw [seqGrow]
    cases m with
    | zero =>
      rw [getD_seqGrow_of_lt _ _ _ (by omega), getD_seqGrow_of_lt _ _ _ (by omega), getD_seqGrow_of_lt _ _ _ (by omega),
        List.getD_append_right _ _ _ _ (by omega), List.getD_append _ _ _ _ (by omega), List.getD_append _ _ _ _ (by omega)]
      simp [hst]
    | succ m =>
      rw [show i + (m + 1) + w = i + 1 + m + w by omega, show i + (m + 1) + tap = i + 1 + m + tap by omega,
        show i + (m + 1) = i + 1 + m by omega]
      exact ih hlen (by omega)

/-- The tap of the feedback (R104). -/
def seqTap (v : Variant) : Nat := if v.lw = 5 then 2 else 1

theorem seqTap_lt (v : Variant) : seqTap v < v.lw := by cases v <;> decide

theorem lw_lt_rc (v : Variant) : v.lw < v.rc := by cases v <;> decide

theorem length_seq (v : Variant) : (seq v).length = v.rc := by
  have hlw := lw_lt_rc v
  rw [seq, length_seqGrow, List.length_replicate]
  omega

/-- The seed. -/
theorem seqBit_of_lt (v : Variant) {n : Nat} (hn : n < v.lw) : seqBit v n = true := by
  rw [seqBit, seq, getD_seqGrow_of_lt _ _ _ (by simpa using hn)]
  simp [hn]

/-- The recurrence, for both seed widths. -/
theorem seqBit_add_lw (v : Variant) {n : Nat} (hn : n + v.lw < v.rc) :
    seqBit v (n + v.lw) = (seqBit v (n + seqTap v) ^^ seqBit v n) := by
  have hgrow := getD_seqGrow_add (seqTap_lt v) (n := v.rc - v.lw) (i := 0) (m := n) (st := List.replicate v.lw true)
    (by simp) (by omega)
  rw [Nat.zero_add] at hgrow
  exact hgrow

/-- Settles O6. -/
theorem constantSequenceRecurrence : Obligations.ConstantSequenceRecurrence := by
  intro v
  refine ⟨length_seq v, fun n => seqBit_of_lt v, fun hlw n hlo hhi => ?_, fun hlw n hlo hhi => ?_⟩
  · obtain ⟨m, rfl⟩ := Nat.exists_eq_add_of_le' hlo
    have hrec := seqBit_add_lw v (n := m) (by omega)
    rwa [seqTap, if_pos hlw, hlw] at hrec
  · obtain ⟨m, rfl⟩ := Nat.exists_eq_add_of_le' hlo
    have hrec := seqBit_add_lw v (n := m) (by omega)
    rwa [seqTap, if_neg (by omega), hlw] at hrec

/-! ### The window register (R106, R107) -/

theorem lfsrWindow_lt (v : Variant) (n : Nat) : (lfsrWindow v n).toNat < 2 ^ v.lw := by
  induction n with
  | zero => exact lfsrLoad_lt v
  | succ n ih => exact lfsrStep_lt v le_rfl ih

theorem getLsbD_lfsrLoad (v : Variant) {k : Nat} (hk : k < v.lw) : (lfsrLoad v).getLsbD k = true := by
  have hlw : v.lw ≤ 6 := by cases v <;> decide
  rw [lfsrLoad, BitVec.getLsbD_ofNat, Nat.testBit_two_pow_sub_one]
  simp [hk]
  omega

/-- R106: every bit moves down by one, and the top one is the feedback. -/
theorem getLsbD_lfsrStep (v : Variant) {x : BitVec 6} (hx : x.toNat < 2 ^ v.lw) {k : Nat} (hk : k < v.lw) :
    (lfsrStep v x).getLsbD k = if k + 1 < v.lw then x.getLsbD (k + 1) else (x.getLsbD (seqTap v) ^^ x.getLsbD 0) := by
  have hlw : v.lw ≤ 6 := by cases v <;> decide
  have hfb : (if v.lw = 5 then x.getLsbD 2 ^^ x.getLsbD 0 else x.getLsbD 1 ^^ x.getLsbD 0) =
      (x.getLsbD (seqTap v) ^^ x.getLsbD 0) := by
    unfold seqTap
    split_ifs <;> rfl
  simp only [lfsrStep, hfb, BitVec.getLsbD_or, BitVec.getLsbD_ushiftRight, BitVec.getLsbD_shiftLeft, BitVec.getLsbD_setWidth,
    BitVec.getLsbD_ofBool, Nat.add_comm 1 k]
  split_ifs with htop
  · simp [show k < v.lw - 1 by omega]
  · have hout : x.getLsbD (k + 1) = false := (toNat_lt_two_pow_iff x v.lw).1 hx _ (by omega)
    simp [hout, show ¬ k < v.lw - 1 by omega, show k < 6 by omega, show k - (v.lw - 1) = 0 by omega]

/-- R107: before round `i` the window holds the sequence from bit `i` on; the feedback is the recurrence. -/
theorem getLsbD_lfsrWindow (v : Variant) {i k : Nat} (hk : k < v.lw) (hik : i + k < v.rc) :
    (lfsrWindow v i).getLsbD k = seqBit v (i + k) := by
  induction i generalizing k with
  | zero => rw [lfsrWindow, getLsbD_lfsrLoad v hk, Nat.zero_add, seqBit_of_lt v hk]
  | succ i ih =>
    have htap := seqTap_lt v
    rw [lfsrWindow, getLsbD_lfsrStep v (lfsrWindow_lt v i) hk]
    split_ifs with htop
    · rw [ih htop (by omega), show i + (k + 1) = i + 1 + k by omega]
    · rw [ih htap (by omega), ih (by omega) (by omega), Nat.add_zero, ← seqBit_add_lw v (by omega),
        show i + v.lw = i + 1 + k by omega]

/-- Settles O7. -/
theorem windowProducesTheSequence : Obligations.WindowProducesTheSequence := by
  intro v i hi
  have hlw : 0 < v.lw := by cases v <;> decide
  exact ⟨getLsbD_lfsrWindow v hlw hi, fun k => getLsbD_lfsrWindow v⟩

end Sys2Proof.Machine
end

section
/-! PROOFS. The round function bit by bit (41_round_function.md R120 to R130): rotation moves bit numbers, and `f` reads three of
them. -/

namespace Sys2Proof.Machine

/-! ### Rotation (R120, R122, R126) -/

/-- The register's own width takes nothing away that the truncation to the word would keep. -/
theorem toNat_rotl (v : Variant) (x : Word) (r : Nat) :
    (rotl v x r).toNat = ((x.toNat <<< r) ||| (x.toNat >>> (v.ws - r))) % 2 ^ v.ws := by
  have hdvd : 2 ^ v.ws ∣ 2 ^ 32 := Nat.pow_dvd_pow 2 (ws_le v)
  rw [rotl, toNat_trunc, BitVec.toNat_or, BitVec.toNat_shiftLeft, BitVec.toNat_ushiftRight, Nat.or_mod_two_pow,
    Nat.mod_mod_of_dvd _ hdvd, ← Nat.or_mod_two_pow]

theorem rotl_fits (v : Variant) (x : Word) (r : Nat) : Fits v (rotl v x r) := trunc_lt v _

theorem rol_eq_some_iff {v : Variant} {x y : Word} {r : Nat} :
    rol v x r = some y ↔ (0 < r ∧ r < v.ws) ∧ y = rotl v x r := by
  unfold rol
  split_ifs with hr <;> simp [hr, eq_comm]

/-- Settles O8: the formula by `toNat_rotl`, the bits by `getLsbD_rotl`. -/
theorem rotationIsPartialAndRotates : Obligations.RotationIsPartialAndRotates := by
  intro v x r hx
  refine ⟨fun hr => if_neg hr, fun hpos hlt => ?_⟩
  exact ⟨rotl v x r, if_pos ⟨hpos, hlt⟩, toNat_rotl v x r, fun i hi => getLsbD_rotl hx hpos hlt hi⟩

/-- Settles O9. -/
theorem roundFunctionBitByBit : Obligations.RoundFunctionBitByBit := fun _ _ _ hx hi => getLsbD_f hx hi

/-- Settles O10. -/
theorem feistelUpdatesUndoEachOther : Obligations.FeistelUpdatesUndoEachOther :=
  fun v h k => ⟨inv_fwd v h k, fwd_inv v h k⟩

/-- Settles O11. -/
theorem widthClosure : Obligations.WidthClosure := by
  intro v x k h _ hk hh
  refine ⟨fun r y hy => ?_, f_fits v x, fwd_fits hh hk, inv_fits hh hk⟩
  obtain ⟨-, rfl⟩ := rol_eq_some_iff.1 hy
  exact rotl_fits v x r

/-! ### Rotation commutes with `f` (R129) -/

/-- Every bit that `f` reads is moved by the same amount. -/
theorem rotl_f {v : Variant} {x : Word} (hx : Fits v x) {r : Nat} (hpos : 0 < r) (hlt : r < v.ws) :
    rotl v (f v x) r = f v (rotl v x r) := by
  apply BitVec.eq_of_getLsbD_eq
  intro i _
  by_cases hi : i < v.ws
  · have hmove (k : Int) : (rotl v x r).getLsbD (bitIndex v ((i : Int) - k)) =
        x.getLsbD (bitIndex v ((bitIndex v ((i : Int) - r) : Int) - k)) := by
      rw [getLsbD_rotl hx hpos hlt (bitIndex_lt v _), bitIndex_bitIndex_sub, bitIndex_bitIndex_sub, sub_right_comm]
    rw [getLsbD_rotl (f_fits v x) hpos hlt hi, getLsbD_f hx (bitIndex_lt v _), getLsbD_f (rotl_fits v x r) hi, hmove, hmove,
      getLsbD_rotl hx hpos hlt hi]
  · rw [(lt_ws_iff v _).1 (rotl_fits v _ r) i (by omega), (lt_ws_iff v _).1 (f_fits v _) i (by omega)]

/-- Settles O12. -/
theorem roundFunctionCommutesWithRotation : Obligations.RoundFunctionCommutesWithRotation := by
  intro v x y r hx hy
  obtain ⟨⟨hpos, hlt⟩, rfl⟩ := rol_eq_some_iff.1 hy
  exact rol_eq_some_iff.2 ⟨⟨hpos, hlt⟩, (rotl_f hx hpos hlt).symm⟩

/-! ### One flipped bit (R130) -/

/-- A step up from a bit of the word wraps around at most once. -/
theorem bitIndex_add_cases (v : Variant) {j r : Nat} (hj : j < v.ws) (hr : r < v.ws) :
    (j + r < v.ws ∧ bitIndex v ((j : Int) + r) = j + r) ∨ (v.ws ≤ j + r ∧ bitIndex v ((j : Int) + r) + v.ws = j + r) := by
  rcases lt_or_ge (j + r) v.ws with h | h
  · exact .inl ⟨h, by rw [← Nat.cast_add, bitIndex_of_lt v h]⟩
  · have hwrap : bitIndex v ((j : Int) + r) = bitIndex v ((j + r - v.ws : Nat) : Int) := by
      rw [bitIndex, bitIndex, Nat.cast_sub h, Nat.cast_add, Int.sub_emod_right]
    rw [hwrap, bitIndex_of_lt v (by omega)]
    exact .inr ⟨h, by omega⟩

section
variable {v : Variant} {x : Word} (hx : Fits v x) {j i : Nat} (hj : j < v.ws) (hi : i < v.ws)
include hx hj hi

/-- The difference of `f` at a bit other than the flipped one: what the flip does to the two bits below it that `f` reads. -/
theorem getLsbD_f_diff_of_ne (hij : i ≠ j) :
    (f v x ^^^ f v (x ^^^ BitVec.twoPow 32 j)).getLsbD i =
      ((x.getLsbD i && decide (bitIndex v ((i : Int) - 5) = j)) ^^ decide (bitIndex v ((i : Int) - 1) = j)) := by
  have hj32 : j < 32 := lt_of_lt_of_le hj (ws_le v)
  have hflip (k : Nat) : (x ^^^ BitVec.twoPow 32 j).getLsbD k = (x.getLsbD k ^^ decide (k = j)) := by
    by_cases hk : k = j
    · rw [hk, getLsbD_flip_self x hj32]; simp
    · rw [getLsbD_flip_of_ne x hk]; simp [hk]
  have hbool : ∀ a b c p q : Bool, ((a && b) ^^ c ^^ ((a && (b ^^ p)) ^^ (c ^^ q))) = ((a && p) ^^ q) := by decide
  rw [BitVec.getLsbD_xor, getLsbD_f hx hi, getLsbD_f (flip_fits hx hj) hi, hflip, hflip, hflip, decide_eq_false hij,
    Bool.xor_false, hbool]

end

/-- Settles O13: at the flipped bit by `getLsbD_f_diff_flipped`, elsewhere by `getLsbD_f_diff_of_ne`: the bit read one or five below
is the flipped one exactly one or five above it. -/
theorem differenceUnderOneFlippedBit : Obligations.DifferenceUnderOneFlippedBit := by
  intro v x j i hx hj hi
  have hge := ws_ge v
  have hj1 := bitIndex_add_cases v hj (r := 1) (by omega)
  have hj5 := bitIndex_add_cases v hj (r := 5) (by omega)
  have hi1 := bitIndex_cases v (k := (i : Int) - 1) (by omega) (by omega)
  have hi5 := bitIndex_cases v (k := (i : Int) - 5) (by omega) (by omega)
  simp only [Nat.cast_one, Nat.cast_ofNat] at hj1 hj5
  refine ⟨by omega, by omega, by omega, ?_⟩
  have h1 : bitIndex v ((i : Int) - 1) = j ↔ i = bitIndex v ((j : Int) + 1) := by omega
  have h5 : bitIndex v ((i : Int) - 5) = j ↔ i = bitIndex v ((j : Int) + 5) := by omega
  have hdistinct : bitIndex v ((j : Int) + 1) ≠ bitIndex v ((j : Int) + 5) := by omega
  by_cases hij : i = j
  · rw [if_pos hij, hij, getLsbD_f_diff_flipped hx hj]
  · rw [if_neg hij, getLsbD_f_diff_of_ne hx hj hi hij]
    simp only [h1, h5]
    split_ifs with hone hfive
    · simp [hone, hdistinct]
    · simp [hfive, hdistinct.symm]
    · simp [hone, hfive]

end Sys2Proof.Machine
end

section
/-! PROOFS. The key schedule, the blocks and the trials of an attack session as functions (42_key_schedule.md R142 to R145;
43_cipher_engine.md R165; 44_fault_attack_engine.md R187 to R195). -/

namespace Sys2Proof.Machine

/-! ### The round keys (R142 to R145) -/

theorem keySchedule_of_lt_four (v : Variant) (key : KeyBits) {n : Nat} (hn : n < 4) :
    keySchedule v key n = keyWord v key n := by
  interval_cases n <;> rfl

/-- A word enters at the back and comes to the front four rounds later. -/
theorem keySchedule_add_four (v : Variant) (key : KeyBits) (n : Nat) : keySchedule v key (n + 4) =
    keySchedule v key n ^^^ f v (keySchedule v key (n + 1)) ^^^ roundConst v (seqBit v n) := rfl

theorem ksRoundBySteps_eq (v : Variant) (z : Bool) (t : KeyReg) : ksRoundBySteps v z t = ksRound v z t := rfl

/-- Settles O15. -/
theorem roundKeyRecurrence : Obligations.RoundKeyRecurrence := by
  intro v key
  refine ⟨fun n => keySchedule_of_lt_four v key, fun n _ => ?_, keySchedule_fits v key, ksRoundBySteps_eq v⟩
  rw [keySchedule_add_four, roundConst, ← BitVec.xor_assoc]

/-! ### Blocks and halves (R165) -/

theorem toNat_upperHalf {v : Variant} {p : Block} (hp : p.toNat < 2 ^ v.bs) : (upperHalf v p).toNat = p.toNat / 2 ^ v.ws := by
  rw [bs_eq, Nat.two_mul, Nat.pow_add] at hp
  have hlt : p.toNat / 2 ^ v.ws < 2 ^ v.ws := Nat.div_lt_of_lt_mul hp
  have hle : 2 ^ v.ws ≤ 2 ^ 32 := Nat.pow_le_pow_right (by decide) (ws_le v)
  rw [upperHalf, BitVec.toNat_setWidth, BitVec.toNat_ushiftRight, Nat.shiftRight_eq_div_pow, Nat.mod_eq_of_lt (by omega)]

theorem toNat_lowerHalf (v : Variant) (p : Block) : (lowerHalf v p).toNat = p.toNat % 2 ^ v.ws := by
  rw [lowerHalf, toNat_trunc, BitVec.toNat_setWidth, Nat.mod_mod_of_dvd _ (Nat.pow_dvd_pow 2 (ws_le v))]

/-- A joined block is the quotient and the remainder that splitting it gives back. -/
theorem toNat_join {v : Variant} {h : Halves} (hh : HalvesFit v h) :
    (join v h).toNat = h.left.toNat * 2 ^ v.ws + h.right.toNat := by
  have hleft : (join v h).toNat / 2 ^ v.ws = h.left.toNat :=
    (toNat_upperHalf (join_lt hh)).symm.trans (congrArg (fun q => q.left.toNat) (split_join hh))
  have hright : (join v h).toNat % 2 ^ v.ws = h.right.toNat :=
    (toNat_lowerHalf v _).symm.trans (congrArg (fun q => q.right.toNat) (split_join hh))
  rw [← hleft, ← hright, Nat.div_add_mod']

/-- Settles O16. -/
theorem blocksSplitAndJoin : Obligations.BlocksSplitAndJoin :=
  ⟨by decide, fun v => ⟨fun p hp => ⟨toNat_upperHalf hp, toNat_lowerHalf v p, join_split hp⟩,
    fun _ hh => ⟨toNat_join hh, join_lt hh, split_join hh⟩⟩⟩

/-! ### The two forms of the recovery (R187 to R189) -/

/-- Numbering from the top twice is numbering from the bottom. -/
theorem msbBit_bitpos (v : Variant) (x : Word) (k : Int) : msbBit v x (bitpos v k) = x.getLsbD (bitIndex v k) := by
  have hlt := bitIndex_lt v k
  rw [msbBit, bitpos, show v.ws - 1 - (v.ws - 1 - bitIndex v k) = bitIndex v k by omega]

theorem bitpos_of_lt (v : Variant) {k : Nat} (hk : k < v.ws) : bitpos v (k : Int) = v.ws - 1 - k := by
  rw [bitpos, bitIndex_of_lt v hk]

theorem recoverTrialMsb_eq (v : Variant) {j : Nat} (hj : j + 5 < v.ws) (c cf : Block) :
    recoverTrialMsb v j c cf = recoverTrial v j c cf := by
  have h0 : bitIndex v (j : Int) = j := bitIndex_of_lt v (by omega)
  have h4 : bitIndex v ((j : Int) + 4) = j + 4 := bitIndex_of_lt v (k := j + 4) (by omega)
  have h5 : bitIndex v ((j : Int) + 5) = j + 5 := bitIndex_of_lt v (k := j + 5) (by omega)
  have hb0 : v.ws - j - 1 = bitpos v (j : Int) := by rw [bitpos, h0]; omega
  have hb5 : v.ws - j - 6 = bitpos v ((j : Int) + 5) := by rw [bitpos, h5]; omega
  simp only [recoverTrialMsb, recoverTrial, comparator, targetA, targetB, hb0, hb5, msbBit_bitpos, h0, h4, h5,
    BitVec.getLsbD_xor]

/-- Settles O18. -/
theorem recoveryFormsAgree : Obligations.RecoveryFormsAgree := by
  intro v j c cf hj
  have hbit := ntrials_add_five_lt v hj
  have h5 := bitpos_of_lt v hbit
  refine ⟨hbit, ?_, ?_, recoverTrialMsb_eq v hbit c cf⟩
  · rw [bitpos_of_lt v (by omega)]
    omega
  · rw [Nat.cast_add, Nat.cast_ofNat] at h5
    rw [h5]
    omega

/-! ### Trials and sessions (R194, R195) -/

/-- Settles O19. -/
theorem trialRecoversLastRoundKeyBits : Obligations.TrialRecoversLastRoundKeyBits := by
  intro v key p j hp hj rk q
  have hq : q = _ := recoverTrial_eq_lastRoundKey (keySchedule_fits v key) hp (ntrials_add_five_lt v hj)
  rw [hq]
  exact ⟨rfl, rfl⟩

theorem sessionMap_fits (v : Variant) (rk : Nat → Word) (p c : Block) {n : Nat} (hn : n ≤ v.ntrials) :
    (sessionMap v rk p c n).FitsIn v := by
  induction n with
  | zero => exact ⟨zero_fits v, zero_fits v⟩
  | succ n ih => exact recordTrial_fits le_rfl (ntrials_add_five_lt v hn) _ _ (ih (by omega))

/-- Every bit of the word is marked, and none above it. -/
theorem accv_sessionMap (v : Variant) (rk : Nat → Word) (p c : Block) : (sessionMap v rk p c v.ntrials).accv = v.mask := by
  apply BitVec.eq_of_getLsbD_eq
  intro k _
  rw [getLsbD_mask]
  by_cases hk : k < v.ws
  · rw [(getLsbD_accv_sessionMap v rk p c _ hk).2 (exists_trial_target v hk), decide_eq_true hk]
  · rw [(lt_ws_iff v _).1 (sessionMap_fits v rk p c le_rfl).2 k (by omega), decide_eq_false hk]

/-- Settles O20. -/
theorem sessionRecoversEveryKeyBit : Obligations.SessionRecoversEveryKeyBit := by
  intro v rk p c
  have hmask : v.mask.toNat = 2 ^ v.ws - 1 := by cases v <;> decide
  rw [accv_sessionMap, hmask]

end Sys2Proof.Machine
end
